-- ==== Sys2Proof/Word.lean ====
section
/-! DEFINITION. The word types of the machine: a byte of program text, a 32-bit instruction word
(R60 of 30_encoding.md) and a 64-bit byte address (R40 of 10_state.md, R51 of 20_memory.md). -/

namespace Sys2Proof

/-- One byte of program text (R51). -/
abbrev Byte := BitVec 8

/-- One instruction word: 32 bits, bit 31 the most significant (R60). -/
abbrev Word := BitVec 32

/-- A byte address; `pc` is one (R40, R51). -/
abbrev Addr := BitVec 64

end Sys2Proof
end

