-- ==== Sys2Proof/Machine/Primitives.lean ====
section
/-! DEFINITION. The pseudocode primitives of 00_scope.md (R10 to R16): the bodies the spec supplies for the
functions the source calls (log entry 12). -/

namespace Sys2Proof.Machine

/-- `UInt(x)` as an integer (R10). -/
def uint {w : Nat} (v : BitVec w) : Int := v.toNat

/-- `SInt(x)`, two's complement (R11). -/
def sint {w : Nat} (v : BitVec w) : Int := v.toInt

/-- `Int(x, unsigned)` (R11). -/
def intOf {w : Nat} (v : BitVec w) (unsigned : Bool) : Int := if unsigned then uint v else sint v

/-- `trunc_N(i)`: the `N`-bit vector whose unsigned value is `i mod 2^N` (R24). -/
def trunc (w : Nat) (i : Int) : BitVec w := BitVec.ofInt w i

/-- `Elem[vector, e, size]` read: bits `(e+1)*size - 1 : e*size` (R12). -/
def elem {w : Nat} (v : BitVec w) (e size : Nat) : BitVec size := v.extractLsb' (e * size) size

/-- `Elem[vector, e, size] = value`: replaces those bits and no other (R13). -/
def setElem {w : Nat} (v : BitVec w) (e size : Nat) (value : BitVec size) : BitVec w :=
  (v &&& ~~~((BitVec.allOnes size).setWidth w <<< (e * size))) ||| (value.setWidth w <<< (e * size))

/-- Write `f e` to element `e`, for `e = 0, 1, .., count - 1` in that order (R13, R23). -/
def fillElems {w : Nat} (v : BitVec w) (size : Nat) (f : Nat → BitVec size) : Nat → BitVec w
  | 0 => v
  | e + 1 => setElem (fillElems v size f e) e size (f e)

/-- `ActivePredicateElement(pred, e, size)`: predicate bit `e * (size DIV 8)`; the element's other predicate bits
are ignored (R16; log entry 11). -/
def activeElem {w : Nat} (pred : BitVec w) (e size : Nat) : Bool := pred.getLsbD (e * (size / 8))

end Sys2Proof.Machine
end

