-- ==== Sys2Proof/Machine/Flags.lean ====
section
/-! DEFINITION. The one computation on which another instruction set would set flags: the accumulation. SUMOPA
reads no flag and writes none (R33, R42 of 10_state.md), and overflow of the accumulation is silent (R15 of
00_scope.md, R91 of 40_sumopa.md), so the machine holds no flag and this file computes none. -/

namespace Sys2Proof.Machine

/-- `sum + prod` of a bit vector and an integer: addition modulo `2^w`, no saturation, no trap, no flag (R15; log
entry 13). -/
def addInt {w : Nat} (sum : BitVec w) (prod : Int) : BitVec w := trunc w (uint sum + prod)

end Sys2Proof.Machine
end

