-- ==== Sys2Proof/Syntax.lean ====
section
/-! DEFINITION. The instructions: one constructor per row of opcode_table.json. A field of the word becomes
the register number `UInt` gives it (R63 of 30_encoding.md), and every value of every field is legal, so
each operand has exactly the range of its field. -/

namespace Sys2Proof

/-- The two instructions (R82, R83 of 40_sumopa.md). Operands in the order of the assembler templates (R73):
`da` the ZA tile, `a` and `b` the governing predicates `<Pn>` and `<Pm>`, `n` and `m` the source vectors `<Zn>` and
`<Zm>`. -/
inductive Instr where
  /-- `SUMOPA <ZAda>.S, <Pn>/M, <Pm>/M, <Zn>.B, <Zm>.B`: the 32-bit class (R82). -/
  | sumopaS (da : Fin 4) (a b : Fin 8) (n m : Fin 32)
  /-- `SUMOPA <ZAda>.D, <Pn>/M, <Pm>/M, <Zn>.H, <Zm>.H`: the 64-bit class (R83). -/
  | sumopaD (da : Fin 8) (a b : Fin 8) (n m : Fin 32)
deriving DecidableEq, Repr

end Sys2Proof
end

