-- ==== Sys2Proof/WellFormed.lean ====
section
/-! DEFINITION. What operands make an instruction: the ranges of R68 of 30_encoding.md on plain numbers, and
the only way from numbers to an `Instr`. An `Instr` holds only numbers in range, so every `Instr` is well formed;
a tuple of numbers out of range is refused here. -/

namespace Sys2Proof

/-- The two encoding classes (R2 of 00_scope.md), named by the element size of the tile. -/
inductive IClass where
  /-- The 32-bit class, "8-bit integer variant". -/
  | word
  /-- The 64-bit class, "16-bit integer variant". -/
  | doubleword
deriving DecidableEq, Repr

/-- The element size of the class's tile in bits (R2, R34). -/
def IClass.esize : IClass → Nat
  | .word => 32
  | .doubleword => 64

/-- How many tiles the class can name: `ZA0`-`ZA3` or `ZA0`-`ZA7` (R34, R63). -/
def IClass.tiles : IClass → Nat
  | .word => 4
  | .doubleword => 8

/-- An operand tuple as numbers: `enc32(da, a, b, n, m)` and `enc64(da, a, b, n, m)` take one (R68). -/
structure OperandTuple where
  cls : IClass
  da : Nat
  a : Nat
  b : Nat
  n : Nat
  m : Nat
deriving DecidableEq, Repr

/-- The side conditions of R68: `0<=da<=3` (or 7), `0<=a,b<=7`, `0<=n,m<=31`. -/
abbrev OperandTuple.WellFormed (o : OperandTuple) : Prop :=
  o.da < o.cls.tiles ∧ o.a < 8 ∧ o.b < 8 ∧ o.n < 32 ∧ o.m < 32

/-- The instruction an operand tuple names; none where a number is out of range. -/
def OperandTuple.instr? : OperandTuple → Option Instr
  | ⟨.word, da, a, b, n, m⟩ =>
    if h : da < 4 ∧ a < 8 ∧ b < 8 ∧ n < 32 ∧ m < 32 then
      some (.sumopaS ⟨da, h.1⟩ ⟨a, h.2.1⟩ ⟨b, h.2.2.1⟩ ⟨n, h.2.2.2.1⟩ ⟨m, h.2.2.2.2⟩)
    else none
  | ⟨.doubleword, da, a, b, n, m⟩ =>
    if h : da < 8 ∧ a < 8 ∧ b < 8 ∧ n < 32 ∧ m < 32 then
      some (.sumopaD ⟨da, h.1⟩ ⟨a, h.2.1⟩ ⟨b, h.2.2.1⟩ ⟨n, h.2.2.2.1⟩ ⟨m, h.2.2.2.2⟩)
    else none

/-- The operand tuple of an instruction. -/
def Instr.operands : Instr → OperandTuple
  | .sumopaS da a b n m => ⟨.word, da, a, b, n, m⟩
  | .sumopaD da a b n m => ⟨.doubleword, da, a, b, n, m⟩

/-- An instruction is well formed when its operand tuple is. -/
abbrev Instr.WellFormed (i : Instr) : Prop := i.operands.WellFormed

end Sys2Proof
end

