-- ==== Sys2Proof/Decode.lean ====
section
/-! DEFINITION. The decoder, total on any word and any bytes, the encoder, and the canonical disassembly
(R60 to R65, R68, R71, R73, R75 of 30_encoding.md). A word that matches neither class is refused; the
feature guards are no part of pattern matching (R65) but of the instructions' meanings. -/

namespace Sys2Proof

/-- Mask and match of the 32-bit class (R64). -/
def maskS : Word := 0xFFE0001C#32
def matchS : Word := 0xA0A00000#32
/-- Mask and match of the 64-bit class (R64). -/
def maskD : Word := 0xFFE00018#32
def matchD : Word := 0xA0E00000#32

/-- `UInt` of the `width` bits of `w` from bit `lo` upward (R10, R63). -/
def field (w : Word) (lo width : Nat) : Fin (2 ^ width) := (w.extractLsb' lo width).toFin

/-- The decode algorithm of R65. -/
def decodeWord (w : Word) : Option Instr :=
  if w &&& maskS = matchS then
    some (.sumopaS (field w 0 2) (field w 10 3) (field w 13 3) (field w 5 5) (field w 16 5))
  else if w &&& maskD = matchD then
    some (.sumopaD (field w 0 3) (field w 10 3) (field w 13 3) (field w 5 5) (field w 16 5))
  else none

/-- The encode functions `enc32` and `enc64` of R68, written from the patterns of R61 and R62, bit 31 first:
`1010000 0 10 1 mmmmm MMM NNN nnnnn 0 0 0 dd` and `1010000 0 11 1 mmmmm MMM NNN nnnnn 0 0 ddd`. -/
def encode : Instr → Word
  | .sumopaS da a b n m =>
    0b10100000101#11 ++ BitVec.ofFin (w := 5) m ++ BitVec.ofFin (w := 3) b ++ BitVec.ofFin (w := 3) a ++
      BitVec.ofFin (w := 5) n ++ 0b000#3 ++ BitVec.ofFin (w := 2) da
  | .sumopaD da a b n m =>
    0b10100000111#11 ++ BitVec.ofFin (w := 5) m ++ BitVec.ofFin (w := 3) b ++ BitVec.ofFin (w := 3) a ++
      BitVec.ofFin (w := 5) n ++ 0b00#2 ++ BitVec.ofFin (w := 3) da

/-- The word of four bytes at increasing addresses: `b3 : b2 : b1 : b0`, little-endian (R52, R55). -/
def wordOfBytes (b0 b1 b2 b3 : Byte) : Word := b3 ++ b2 ++ b1 ++ b0

/-- Byte `i` of a word in increasing address order (R55). -/
def byteOfWord (w : Word) (i : Nat) : Byte := w.extractLsb' (8 * i) 8

/-- Why bytes are no instruction of this spec. -/
inductive DecodeError where
  /-- Fewer than the four bytes of an instruction word (R60). -/
  | tooShort
  /-- A word that matches neither class (R71). -/
  | notSumopa (w : Word)
deriving DecidableEq, Repr

/-- Decode the first instruction of a list of bytes: it and the bytes after it, or why there is none. -/
def decode : List Byte → Except DecodeError (Instr × List Byte)
  | b0 :: b1 :: b2 :: b3 :: rest =>
    match decodeWord (wordOfBytes b0 b1 b2 b3) with
    | some i => .ok (i, rest)
    | none => .error (.notSumopa (wordOfBytes b0 b1 b2 b3))
  | _ => .error .tooShort

/-- The bytes of an instruction in increasing address order (R55, R60). -/
def encodeBytes (i : Instr) : List Byte := (List.range 4).map (byteOfWord (encode i))

/-- The instruction the decoder reads from an instruction whose low `nbits` bits are `w` and whose other bits are
0, laid out as the hardware stores it. -/
def decodeTableWord (nbits w : Nat) : Option Instr :=
  let word : Word := BitVec.ofNat 32 (w % 2 ^ nbits)
  match decode ((List.range 4).map (byteOfWord word)) with
  | .ok (i, _) => some i
  | .error _ => none

/-- The canonical disassembly of R75, by the templates of R73. -/
def disassemble : Instr → String
  | .sumopaS da a b n m =>
    "SUMOPA ZA" ++ toString da.val ++ ".S, P" ++ toString a.val ++ "/M, P" ++ toString b.val ++ "/M, Z"
      ++ toString n.val ++ ".B, Z" ++ toString m.val ++ ".B"
  | .sumopaD da a b n m =>
    "SUMOPA ZA" ++ toString da.val ++ ".D, P" ++ toString a.val ++ "/M, P" ++ toString b.val ++ "/M, Z"
      ++ toString n.val ++ ".H, Z" ++ toString m.val ++ ".H"

end Sys2Proof
end

