-- ==== Sys2Proof/Config.lean ====
section
/-! DEFINITION. The implementation parameters (R7 of 00_scope.md, R103 of 60_exceptions.md): constant over a
run, so they are plain data that every state carries and no instruction writes (log entry 1). A statement about every
state is thereby a statement about every implementation. The spec leaves no result undefined (R92 of
40_sumopa.md), so there is no free value here. -/

namespace Sys2Proof

/-- The parameters of R7 and R103. -/
structure Config where
  /-- `HaveSME()`: the implementation has `FEAT_SME` (R21). -/
  haveSME : Bool
  /-- `HaveSMEI16I64()`: the implementation has `FEAT_SME_I16I64` (R21). -/
  haveSMEI16I64 : Bool
  /-- `CurrentVL`: the current vector length in bits (R17). -/
  vl : Nat
  /-- `sme_access_ok`: SME instructions are permitted at the current privilege level (R103). -/
  smeAccessOk : Bool
deriving DecidableEq, Repr

/-- `ID_AA64SMFR0_EL1.I16I64` "indicates whether the 16-bit integer variant is implemented" (R39); it is
the same condition as `HaveSMEI16I64` (C4 of 90_conflicts.md). The spec gives the field no position and no width. -/
def Config.idI16I64 (c : Config) : Bool := c.haveSMEI16I64

end Sys2Proof
end

