-- ==== Sys2Proof/Machine/State.lean ====
section
/-! DEFINITION. The state the spec gives the machine (summary table of 10_state.md), as plain data; the
faults (R101 of 60_exceptions.md) and refusals; and the state after reset. -/

namespace Sys2Proof.Machine

/-- Which test of `CheckStreamingSVEAndZAEnabled()` failed (R101, R104). -/
inductive TrapReason where
  /-- `sme_access_ok` is false. -/
  | accessTrap
  /-- `SM = 0`. -/
  | notStreaming
  /-- `ZAen = 0`. -/
  | inactiveZA
deriving DecidableEq, Repr

/-- The synchronous exceptions of R101. Each is terminal: it stops the run and records its name and the address
of the raising instruction (R107). Raised by the two SUMOPA meanings only. Stopping is safe: real hardware would
enter a handler, which this spec does not describe. -/
inductive Fault where
  /-- `Undefined`: the class's feature is absent (R100). Raised by `execSumopaS` and `execSumopaD`, at Decode. Safe. -/
  | undefined (pc : Addr)
  /-- `SMEAccessTrap(reason)`: the enable check failed (R102). Raised by `execSumopaS` and `execSumopaD`, as the first act
  of Execute. Safe for whether it is raised; which reason is named rests on the order of R104 (log entry 8). -/
  | smeAccessTrap (reason : TrapReason) (pc : Addr)
deriving DecidableEq, Repr

/-- Why a state has no step, or a word no meaning: none of these is an architectural exception (R108). All but
`notModelled` are raised by the fetch stage of `step`, never by a meaning. -/
inductive Refusal where
  /-- An instruction without a meaning; no arm of `exec` is left with it. Safe. -/
  | notModelled (mnemonic : String)
  /-- The parameters are outside premise P-vl or break `HaveSMEI16I64 -> HaveSME` (R121, D1, D2). Safe. -/
  | illegalConfig
  /-- The program text is placed against R53 (`base` misaligned, or its end at or beyond `2^64`, R40). Safe. -/
  | textMisplaced
  /-- `pc` is not a multiple of 4 (R54). Safe. -/
  | pcMisaligned
  /-- `pc = base + 4*L` with no fault recorded: the final state, which has no step (R53). Safe. -/
  | endOfText
  /-- `pc` is outside the program text: no step (R53). Safe. -/
  | outsideText
  /-- A byte of the program text at `pc` was never placed (R53: `Fetch` is not defined there). Safe. -/
  | textByteAbsent
  /-- The word matches neither class: outside the scope of the spec (R71). Safe. -/
  | notSumopa (w : Word)
deriving DecidableEq, Repr

/-- `ZA` storage: the vectors `ZAvec[0 .. VL DIV 8 - 1]` of `VL` bits each (R35). -/
abbrev ZAStorage (vl : Nat) := Vector (BitVec vl) (vl / 8)

/-- The register state at vector length `vl`. -/
structure Regs (vl : Nat) where
  /-- Scalable vector registers `Z0`-`Z31`, exactly `VL` bits each (R30). -/
  z : Vector (BitVec vl) 32
  /-- Scalable predicate registers `P0`-`P15`, exactly `VL DIV 8` bits each (R32). -/
  p : Vector (BitVec (vl / 8)) 16
  /-- `ZA` storage (R35). -/
  za : ZAStorage vl
deriving DecidableEq, Repr

/-- Where the program text stands (R53): `len` words from `base`. -/
structure Text where
  base : Addr
  len : Nat
deriving DecidableEq, Repr

/-- The address after the last word, `base + 4*L`, as a number (R53). -/
def Text.endAddr (t : Text) : Nat := t.base.toNat + 4 * t.len

/-- Byte-addressed memory as (address, byte) pairs (R51); an unlisted address has no value (log entry 6). -/
abbrev Memory := List Host.Cell

/-- The canonical form: addresses strictly rising, each a 64-bit address. -/
abbrev Memory.Wf (m : Memory) : Prop :=
  m.Pairwise (fun c d => c.1 < d.1) ∧ ∀ c ∈ m, c.1 < 2 ^ 64

/-- The machine's state: the parameters of the implementation and of the run, and the state of 10_state.md. -/
structure State where
  /-- The implementation's parameters (R7, R103); no step writes them. -/
  cfg : Config
  /-- `Z`, `P` and `ZA` (R30, R32, R35). -/
  regs : Regs cfg.vl
  /-- `SM`: streaming SVE mode is enabled (R37). -/
  sm : Bool
  /-- `ZAen`: `ZA` storage is enabled (R37). -/
  zaEn : Bool
  /-- The program counter (R40). -/
  pc : Addr
  /-- The placement of the program text (R53); no step writes it. -/
  text : Text
  /-- The program text's bytes (R51, R59); no step writes them. -/
  mem : Memory
  /-- The fault record (R107): empty until an instruction raises, never cleared. -/
  faultRecord : Option Fault
deriving DecidableEq, Repr

/-- All registers zero. -/
def Regs.zero (vl : Nat) : Regs vl where
  z := Vector.replicate 32 0#vl
  p := Vector.replicate 16 0#(vl / 8)
  za := Vector.replicate (vl / 8) 0#vl

/-- The state after reset. The spec states no reset value (R47, R120) but an empty fault record: the values of
the parameters, of `Z`, `P` and `ZA`, of `pc` and of the text are DESIGN CHOICES (log entries 1, 2, 4; unsafe), and
`SM = ZAen = 0` is PRESUMED, the family's value that R47 gives for orientation (log entry 3; unsafe). -/
def State.reset : State where
  cfg := { haveSME := true, haveSMEI16I64 := true, vl := 128, smeAccessOk := true }
  regs := Regs.zero 128
  sm := false
  zaEn := false
  pc := 0#64
  text := { base := 0#64, len := 0 }
  mem := []
  faultRecord := none

end Sys2Proof.Machine
end

