-- ==== Sys2Proof/Machine/Ops.lean ====
section
/-! DEFINITION. The named operations: memory, registers, `ZA` tiles, the enable check, raising an
exception, and completing an instruction. -/

namespace Sys2Proof.Machine

/-! ### Memory: the program text (R51 to R53, R55) -/

/-- The byte at an address; none where nothing was placed (R53). -/
def Memory.read? : Memory → Nat → Option Byte
  | [], _ => none
  | (b, x) :: rest, a => if a = b then some x else Memory.read? rest a

/-- Place a byte, keeping the addresses rising. -/
def Memory.write : Memory → Nat → Byte → Memory
  | [], a, x => [(a, x)]
  | (b, y) :: rest, a, x =>
    if a < b then (a, x) :: (b, y) :: rest
    else if a = b then (a, x) :: rest
    else (b, y) :: Memory.write rest a x

/-- `Fetch(addr) = b3 : b2 : b1 : b0`; none where a byte was never placed (R52, R53). -/
def Memory.fetchWord (m : Memory) (a : Nat) : Option Word :=
  match m.read? a, m.read? (a + 1), m.read? (a + 2), m.read? (a + 3) with
  | some b0, some b1, some b2, some b3 => some (wordOfBytes b0 b1 b2 b3)
  | _, _, _, _ => none

/-- Place a word, least significant byte lowest (R55). -/
def Memory.placeWord (m : Memory) (a : Nat) (w : Word) : Memory :=
  (((m.write a (byteOfWord w 0)).write (a + 1) (byteOfWord w 1)).write (a + 2) (byteOfWord w 2)).write
    (a + 3) (byteOfWord w 3)

/-- Place the words of a program from address `a` upward (R53). -/
def Memory.placeText (m : Memory) (a : Nat) : List Word → Memory
  | [] => m
  | w :: ws => Memory.placeText (m.placeWord a w) (a + 4) ws

/-! ### Registers -/

/-- `Z[n]`: the whole register (R18). -/
def Regs.zReg {vl : Nat} (r : Regs vl) (n : Fin 32) : BitVec vl := r.z[n]

/-- `P[n]` for the predicates an instruction can name, `P0`-`P7` (R19, R32). -/
def Regs.pReg {vl : Nat} (r : Regs vl) (n : Fin 8) : BitVec (vl / 8) := r.p[n.val]

/-- The registers with another `ZA` storage. -/
def Regs.setZA {vl : Nat} (r : Regs vl) (za : ZAStorage vl) : Regs vl := { r with za := za }

/-! ### ZA tiles (R20, R34, R36; log entry 10) -/

/-- `dim`: rows, and columns, of a tile with elements of `esize` bits (R34). -/
def tileDim (vl esize : Nat) : Nat := vl / esize

/-- Row `i` of tile `t` is storage vector `t + i * (esize DIV 8)` (R36). -/
def tileVec (t esize i : Nat) : Nat := t + i * (esize / 8)

/-- `ZAvec[j]`. Every row of every tile lies in the storage (R35, R36); past its end the value is 0 and nothing
reads it (log entry 22). -/
def zaVec {vl : Nat} (za : ZAStorage vl) (j : Nat) : BitVec vl := if h : j < vl / 8 then za[j] else 0#vl

/-- The element of tile `t` at row `row`, column `col`, as it lies in storage (R36). -/
def tileElem {vl : Nat} (za : ZAStorage vl) (t esize row col : Nat) : BitVec esize :=
  elem (zaVec za (tileVec t esize row)) col esize

/-- `ZAtile[t, esize]` read: the flat vector whose element `row*dim + col` is the tile's (R20, R36). -/
def readTile {vl : Nat} (za : ZAStorage vl) (t esize : Nat) :
    BitVec (tileDim vl esize * tileDim vl esize * esize) :=
  fillElems 0#_ esize (fun e => tileElem za t esize (e / tileDim vl esize) (e % tileDim vl esize))
    (tileDim vl esize * tileDim vl esize)

/-- Storage vector `j` belongs to tile `t` at element size `esize`: it is one of its rows (R36). -/
def tileOwns (vl t esize j : Nat) : Bool :=
  decide (t ≤ j) && decide ((j - t) % (esize / 8) = 0) && decide ((j - t) / (esize / 8) < tileDim vl esize)

/-- `ZAtile[t, esize] <- v`: every row of the tile takes its elements from the flat vector, and no other storage
vector changes (R20, R36). -/
def writeTile {vl : Nat} (za : ZAStorage vl) (t esize : Nat)
    (v : BitVec (tileDim vl esize * tileDim vl esize * esize)) : ZAStorage vl :=
  Vector.ofFn fun j : Fin (vl / 8) =>
    if tileOwns vl t esize j then
      fillElems za[j] esize (fun col => elem v ((j - t) / (esize / 8) * tileDim vl esize + col) esize)
        (tileDim vl esize)
    else za[j]

/-! ### Raising, the enable check, completing -/

/-- `raise F(info)` (R107): the outcome is the fault with the address of the raising instruction; no state changes.
The spec describes no trap entry and no return (R107, R109), so a raise ends the run. -/
def raise (name : Addr → Fault) (s : State) : Host.Outcome State Fault Refusal := .fault (name s.pc)

/-- The faulted state a raise leaves: the fault record filled, `pc` and all else as it was (R107). -/
def State.recordFault (s : State) (r : Fault) : State := { s with faultRecord := some r }

/-- The tests of `CheckStreamingSVEAndZAEnabled()` in the order of R104: the reason of the first that fails. -/
def enableCheck (s : State) : Option TrapReason :=
  if !s.cfg.smeAccessOk then some .accessTrap
  else if !s.sm then some .notStreaming
  else if !s.zaEn then some .inactiveZA
  else none

/-- An instruction completes: its registers are written and `pc <- pc + 4` (R40). -/
def State.complete (s : State) (regs : Regs s.cfg.vl) : State := { s with regs := regs, pc := s.pc + 4#64 }

end Sys2Proof.Machine
end

