-- ==== Sys2Proof/Machine/Operands.lean ====
section
/-! DEFINITION. The variables Decode sets (R80, R81 of 40_sumopa.md) and the operands Execute reads with them
(R86, R31, R33). -/

namespace Sys2Proof.Machine

/-- The variables Decode hands to Execute (R23). -/
structure Vars where
  esize : Nat
  a : Fin 8
  b : Fin 8
  n : Fin 32
  m : Fin 32
  da : Nat
  subOp : Bool
  op1Unsigned : Bool
  op2Unsigned : Bool
deriving DecidableEq, Repr

/-- Decode of the 32-bit class after its guard (R80). -/
abbrev varsS (da : Fin 4) (a b : Fin 8) (n m : Fin 32) : Vars where
  esize := 32
  a := a
  b := b
  n := n
  m := m
  da := da
  subOp := false
  op1Unsigned := false
  op2Unsigned := true

/-- Decode of the 64-bit class after its guard (R81). -/
abbrev varsD (da : Fin 8) (a b : Fin 8) (n m : Fin 32) : Vars where
  esize := 64
  a := a
  b := b
  n := n
  m := m
  da := da
  subOp := false
  op1Unsigned := false
  op2Unsigned := true

/-- What Execute reads before it writes (R86): two predicates, two vectors and the tile. -/
structure Sources (vl esize : Nat) where
  mask1 : BitVec (vl / 8)
  mask2 : BitVec (vl / 8)
  operand1 : BitVec vl
  operand2 : BitVec vl
  operand3 : BitVec (tileDim vl esize * tileDim vl esize * esize)

/-- The reads at the start of Execute (R86, R31, R33). -/
def readSources {vl : Nat} (v : Vars) (r : Regs vl) : Sources vl v.esize where
  mask1 := r.pReg v.a
  mask2 := r.pReg v.b
  operand1 := r.zReg v.n
  operand2 := r.zReg v.m
  operand3 := readTile r.za v.da v.esize

end Sys2Proof.Machine
end

