-- ==== Sys2Proof/Machine/Sumopa.lean ====
section
/-! DEFINITION. The family SUMOPA: the shared Execute text (R86 of 40_sumopa.md), statement by statement, and
the meaning of each class (R82, R83). -/

namespace Sys2Proof.Machine

/-- The body of the `k` loop: where both source elements are Active, `sum = sum + prod` (R86, R85). -/
def accumulate {vl : Nat} (v : Vars) (x : Sources vl v.esize) (row col : Nat) (sum : BitVec v.esize) (k : Nat) :
    BitVec v.esize :=
  if activeElem x.mask1 (4 * row + k) (v.esize / 4) && activeElem x.mask2 (4 * col + k) (v.esize / 4) then
    let prod := intOf (elem x.operand1 (4 * row + k) (v.esize / 4)) v.op1Unsigned *
      intOf (elem x.operand2 (4 * col + k) (v.esize / 4)) v.op2Unsigned
    addInt sum (if v.subOp then -prod else prod)
  else sum

/-- The new tile element at `row`, `col`: the old one, then `for k = 0 to 3` (R86). -/
def newElem {vl : Nat} (v : Vars) (x : Sources vl v.esize) (row col : Nat) : BitVec v.esize :=
  [0, 1, 2, 3].foldl (accumulate v x row col) (elem x.operand3 (row * tileDim vl v.esize + col) v.esize)

/-- `result`: every element `row*dim + col` written once (R86, R13; its initial content is immaterial, U5). -/
def resultTile {vl : Nat} (v : Vars) (x : Sources vl v.esize) :
    BitVec (tileDim vl v.esize * tileDim vl v.esize * v.esize) :=
  fillElems 0#_ v.esize (fun e => newElem v x (e / tileDim vl v.esize) (e % tileDim vl v.esize))
    (tileDim vl v.esize * tileDim vl v.esize)

/-- The registers after the operation: the tile takes `result`, nothing else changes (R86, R48). -/
def sumopaRegs {vl : Nat} (v : Vars) (r : Regs vl) : Regs vl :=
  r.setZA (writeTile r.za v.da v.esize (resultTile v (readSources v r)))

/-- Execute (R86): the enable check, then the operation, then `pc <- pc + 4`. -/
def execute (v : Vars) (s : State) : Host.Outcome State Fault Refusal :=
  match enableCheck s with
  | some reason => raise (Fault.smeAccessTrap reason) s
  | none => .next (s.complete (sumopaRegs v s.regs))

/-- `SUMOPA <ZAda>.S, <Pn>/M, <Pm>/M, <Zn>.B, <Zm>.B` (R82): the guard of R80, then Execute. -/
def execSumopaS (da : Fin 4) (a b : Fin 8) (n m : Fin 32) (s : State) : Host.Outcome State Fault Refusal :=
  if !s.cfg.haveSME then raise Fault.undefined s else execute (varsS da a b n m) s

/-- `SUMOPA <ZAda>.D, <Pn>/M, <Pm>/M, <Zn>.H, <Zm>.H` (R83): the guard of R81, then Execute. -/
def execSumopaD (da : Fin 8) (a b : Fin 8) (n m : Fin 32) (s : State) : Host.Outcome State Fault Refusal :=
  if !s.cfg.haveSMEI16I64 then raise Fault.undefined s else execute (varsD da a b n m) s

end Sys2Proof.Machine
end

