-- ==== Sys2Proof/Machine/Dispatch.lean ====
section
/-! DEFINITION. The dispatch: one arm per instruction, each one direct call of its meaning. -/

namespace Sys2Proof.Machine

def exec (i : Instr) (s : State) : Host.Outcome State Fault Refusal :=
  match i with
  | .sumopaS da a b n m => Sys2Proof.Machine.execSumopaS da a b n m s
  | .sumopaD da a b n m => Sys2Proof.Machine.execSumopaD da a b n m s

end Sys2Proof.Machine
end

