-- ==== Sys2Proof/Machine/Fetch.lean ====
section
/-! DEFINITION. The fetch stage of a step: the launch premises it refuses a state for (R121 of
70_reset_and_hazards.md), the checks of `pc` and the fetch (R52 to R55 of 20_memory.md), and the decoding of the
fetched word; and the placing of a program. -/

namespace Sys2Proof.Machine

/-- Premise P-vl and the constraint of D1: the vector length is legal, and `HaveSMEI16I64` implies `HaveSME`
(R7, R121). -/
def configLegal (c : Config) : Bool :=
  [128, 256, 512, 1024, 2048].contains c.vl && (!c.haveSMEI16I64 || c.haveSME)

/-- The placement R53 asks for: `base mod 4 = 0` and `base + 4*L < 2^64`, strictly (R40, C8). -/
def textPlaced (t : Text) : Bool := decide (t.base.toNat % 4 = 0) && decide (t.endAddr < 2 ^ 64)

/-- `pc` is in the program text, `[base, base + 4*L)` (R53). -/
def inText (s : State) : Bool := decide (s.text.base.toNat ≤ s.pc.toNat) && decide (s.pc.toNat < s.text.endAddr)

/-- The word at `pc`, or why this state has no step; `pc`'s alignment is checked first (R52). -/
def fetch (s : State) : Except Refusal Word :=
  if !configLegal s.cfg then .error .illegalConfig
  else if !textPlaced s.text then .error .textMisplaced
  else if s.pc.toNat % 4 ≠ 0 then .error .pcMisaligned
  else if s.pc.toNat = s.text.endAddr then .error .endOfText
  else if !inText s then .error .outsideText
  else match s.mem.fetchWord s.pc.toNat with
    | some w => .ok w
    | none => .error .textByteAbsent

/-- Fetch and decode; a word that matches neither class is refused (R65, R71). -/
def fetchInstr (s : State) : Except Refusal Instr :=
  match fetch s with
  | .error r => .error r
  | .ok w =>
    match decodeWord w with
    | some i => .ok i
    | none => .error (.notSumopa w)

/-- The state with the program `words` placed at `base` and about to run it: premises P-text, P-pc and P-nofault
(R53, R121). Registers, mode bits and parameters are the state's own. -/
def State.load (s : State) (base : Addr) (words : List Word) : State :=
  { s with
    pc := base
    text := { base := base, len := words.length }
    mem := s.mem.placeText base.toNat words
    faultRecord := none }

end Sys2Proof.Machine
end

