-- ==== Sys2Proof/Machine/Step.lean ====
section
/-! DEFINITION. One step of the PE (R52 of 20_memory.md), and the placing of one instruction where it fetches. -/

namespace Sys2Proof.Machine

/-- One step (R52, R108): a faulted state has no further step and answers its fault again (R107); otherwise fetch
and decode, then the instruction's meaning, which itself advances `pc` when it completes (R40). -/
def step (s : State) : Host.Outcome State Fault Refusal :=
  match s.faultRecord with
  | some r => .fault r
  | none =>
    match fetchInstr s with
    | .error r => .refused r
    | .ok i => exec i s

/-- `s` with the instruction of the table word `w` placed as a one-word program at `pc` (log entry 5). -/
def State.withFetchWord (s : State) (nbits w : Nat) : State := s.load s.pc [BitVec.ofNat 32 (w % 2 ^ nbits)]

end Sys2Proof.Machine
end

