-- ==== Sys2Proof/Machine/Run.lean ====
section
/-! DEFINITION. A run (R123 of 70_reset_and_hazards.md): the states it goes through, and how it ends. -/

namespace Sys2Proof.Machine

/-- The state a step leaves: the next state; after a raise the same state with the fault recorded (R107); after a
refusal the same state. -/
def advance (s : State) : State :=
  match step s with
  | .next t => t
  | .fault r => s.recordFault r
  | .refused _ => s

/-- The state after `k` steps. -/
def runFor : Nat → State → State
  | 0, s => s
  | k + 1, s => runFor k (advance s)

/-- The three ways a run ends (R123). -/
inductive RunEnd where
  /-- `pc = base + 4*L` and no fault is recorded. -/
  | final
  /-- A step raised. -/
  | faulted (r : Fault)
  /-- The state has no step, or its word matches neither class. -/
  | refused (r : Refusal)
deriving DecidableEq, Repr

/-- How the run has ended at a state; none while it goes on (R123, R107, R53). -/
def runEnd (s : State) : Option RunEnd :=
  match s.faultRecord with
  | some r => some (.faulted r)
  | none =>
    match step s with
    | .refused .endOfText => some .final
    | .refused r => some (.refused r)
    | _ => none

end Sys2Proof.Machine
end

