-- ==== Sys2Proof/Safety.lean ====
section
/-! DEFINITION. The terms claims are stated in: the launch premises (R121 of 70_reset_and_hazards.md), the
machine's invariant, and the matrices of R87 of 40_sumopa.md. Premise P-quiet is the model itself: nothing but
`step` writes the state (log entry 18). -/

namespace Sys2Proof.Machine

/-- Premise P-feat32 (R121). -/
abbrev State.Feat32 (s : State) : Prop := s.cfg.haveSME = true

/-- Premise P-feat64 (R121): its own clause; that `HaveSME` holds with it is part of `configLegal`. -/
abbrev State.Feat64 (s : State) : Prop := s.cfg.haveSMEI16I64 = true

/-- Premise P-enabled (R121). -/
abbrev State.Enabled (s : State) : Prop := s.cfg.smeAccessOk = true ∧ s.sm = true ∧ s.zaEn = true

/-- The implementation has the feature an instruction needs (R2). -/
abbrev State.HasFeature (s : State) : Instr → Prop
  | .sumopaS .. => s.Feat32
  | .sumopaD .. => s.Feat64

/-- Every byte of the program text has been placed (P-text, R53). -/
abbrev State.TextPresent (s : State) : Prop :=
  ∀ i < 4 * s.text.len, (s.mem.read? (s.text.base.toNat + i)).isSome = true

/-- What holds at launch by P-vl, P-text, P-pc and P-nofault and is kept by every step: the parameters are legal,
the text is placed and present, memory is canonical, no fault is recorded, and `pc` is aligned and within the text or
at its end (R121, R54). -/
abbrev State.Inv (s : State) : Prop :=
  configLegal s.cfg = true ∧ textPlaced s.text = true ∧ s.mem.Wf ∧ s.TextPresent ∧ s.faultRecord = none ∧
    s.pc.toNat % 4 = 0 ∧ s.text.base.toNat ≤ s.pc.toNat ∧ s.pc.toNat ≤ s.text.endAddr

/-- How many words of the program text are still to run. -/
def State.wordsLeft (s : State) : Nat := (s.text.endAddr - s.pc.toNat) / 4

/-- `A[r][k]` of R87: source element `4*r + k` of `Z[n]`, signed, or 0 where it is Inactive under `P[a]`. -/
def matA {vl : Nat} (esize : Nat) (r : Regs vl) (n : Fin 32) (a : Fin 8) (row k : Nat) : Int :=
  if (r.pReg a).getLsbD ((4 * row + k) * (esize / 32)) then
    ((r.zReg n).extractLsb' ((4 * row + k) * (esize / 4)) (esize / 4)).toInt
  else 0

/-- `B[k][c]` of R87: source element `4*c + k` of `Z[m]`, unsigned, or 0 where it is Inactive under `P[b]`. -/
def matB {vl : Nat} (esize : Nat) (r : Regs vl) (m : Fin 32) (b : Fin 8) (k col : Nat) : Int :=
  if (r.pReg b).getLsbD ((4 * col + k) * (esize / 32)) then
    (((r.zReg m).extractLsb' ((4 * col + k) * (esize / 4)) (esize / 4)).toNat : Int)
  else 0

/-- The 4-way dot product `sum over k in 0..3 of A[r][k] * B[k][c]` (R87). -/
def dot4 {vl : Nat} (esize : Nat) (r : Regs vl) (a b : Fin 8) (n m : Fin 32) (row col : Nat) : Int :=
  matA esize r n a row 0 * matB esize r m b 0 col + matA esize r n a row 1 * matB esize r m b 1 col +
    matA esize r n a row 2 * matB esize r m b 2 col + matA esize r n a row 3 * matB esize r m b 3 col

end Sys2Proof.Machine
end

