-- ==== Sys2Proof/Certificates/Slice0/Obligations.lean ====
section
/-! DEFINITION. The statements for the provers: encoding, the step, each instruction's effect, frame, stops,
laws of the operation, the program text, the invariant and the run. -/

open Sys2Proof Sys2Proof.Machine

/-! ### Encoding (30_encoding.md) -/

/-- Decoding an encoded instruction gives it back, as a word and as bytes followed by any others (section 2 of
30_encoding.md: "encode then decode is the identity on operand tuples"). -/
def Obligations.EncodeThenDecodeGivesInstructionBack : Prop :=
  ∀ (i : Instr) (rest : List Byte),
    i.WellFormed → decodeWord (encode i) = some i ∧ decode (encodeBytes i ++ rest) = .ok (i, rest)

/-- Encoding a decoded word gives it back ("Decode then encode is the identity on matching words"). -/
def Obligations.DecodeThenEncodeGivesWordBack : Prop :=
  ∀ (w : Word) (i : Instr), decodeWord w = some i → encode i = w

/-- R61: the format of the 32-bit class, box by box. -/
def Obligations.WordClassHasItsDiagram : Prop :=
  ∀ (w : Word) (da : Fin 4) (a b : Fin 8) (n m : Fin 32),
    decodeWord w = some (.sumopaS da a b n m) ↔
      w.extractLsb' 30 2 = 0b10#2 ∧ w.extractLsb' 25 5 = 0b10000#5 ∧ w.extractLsb' 24 1 = 0#1 ∧
        w.extractLsb' 22 2 = 0b10#2 ∧ w.extractLsb' 21 1 = 1#1 ∧ (w.extractLsb' 16 5).toNat = m.val ∧
        (w.extractLsb' 13 3).toNat = b.val ∧ (w.extractLsb' 10 3).toNat = a.val ∧
        (w.extractLsb' 5 5).toNat = n.val ∧ w.extractLsb' 4 1 = 0#1 ∧ w.extractLsb' 3 1 = 0#1 ∧
        w.extractLsb' 2 1 = 0#1 ∧ (w.extractLsb' 0 2).toNat = da.val

/-- R62: the format of the 64-bit class, box by box. -/
def Obligations.DoublewordClassHasItsDiagram : Prop :=
  ∀ (w : Word) (da : Fin 8) (a b : Fin 8) (n m : Fin 32),
    decodeWord w = some (.sumopaD da a b n m) ↔
      w.extractLsb' 30 2 = 0b10#2 ∧ w.extractLsb' 25 5 = 0b10000#5 ∧ w.extractLsb' 24 1 = 0#1 ∧
        w.extractLsb' 22 2 = 0b11#2 ∧ w.extractLsb' 21 1 = 1#1 ∧ (w.extractLsb' 16 5).toNat = m.val ∧
        (w.extractLsb' 13 3).toNat = b.val ∧ (w.extractLsb' 10 3).toNat = a.val ∧
        (w.extractLsb' 5 5).toNat = n.val ∧ w.extractLsb' 4 1 = 0#1 ∧ w.extractLsb' 3 1 = 0#1 ∧
        (w.extractLsb' 0 3).toNat = da.val

/-- A word is refused exactly when it matches neither class, and no word matches both (the decode algorithm and the
masks of section 2 of 30_encoding.md). -/
def Obligations.OnlyMatchingWordsDecode : Prop :=
  ∀ w : Word,
    (decodeWord w = none ↔
      w &&& 0xFFE0001C#32 ≠ 0xA0A00000#32 ∧ w &&& 0xFFE00018#32 ≠ 0xA0E00000#32) ∧
    ¬ (w &&& 0xFFE0001C#32 = 0xA0A00000#32 ∧ w &&& 0xFFE00018#32 = 0xA0E00000#32)

/-- Words of 95_test_vectors.md part B: TB1.2, TB1.4, TB2.2, TB2.6, TB3.1 and TB3.13. -/
def Obligations.SampleWordsDecode : Prop :=
  decodeWord 0b10100000101001010110100010000001#32 = some (.sumopaS 1 2 3 4 5) ∧
  decodeWord 0b10100000101000000010000000000010#32 = some (.sumopaS 2 0 1 0 0) ∧
  decodeWord 0b10100000111100010011101111000101#32 = some (.sumopaD 5 6 1 30 17) ∧
  decodeWord 0b10100000111000101000110000100111#32 = some (.sumopaD 7 3 4 1 2) ∧
  decodeWord 0b10100000101000000000000000000100#32 = none ∧
  decodeWord 0b10100000111000000000000000000100#32 = some (.sumopaD 4 0 0 0 0)

/-- Decode of the 32-bit class (section 2 of 40_sumopa.md). That `UNDEFINED` stops the machine with the fault
`undefined`, and that the fault records `pc`, are DESIGN CHOICES, the spec's own (log entries 7, 9). -/
def Obligations.WordClassDecodeSetsItsVariables : Prop :=
  ∀ (w : Word) (s : State), w &&& 0xFFE0001C#32 = 0xA0A00000#32 →
    ∃ (i : Instr) (v : Vars), decodeWord w = some i ∧ v.esize = 32 ∧
      v.a.val = (w.extractLsb' 10 3).toNat ∧ v.b.val = (w.extractLsb' 13 3).toNat ∧
      v.n.val = (w.extractLsb' 5 5).toNat ∧ v.m.val = (w.extractLsb' 16 5).toNat ∧
      v.da = (w.extractLsb' 0 2).toNat ∧ v.subOp = false ∧ v.op1Unsigned = false ∧ v.op2Unsigned = true ∧
      (s.cfg.haveSME = false → exec i s = .fault (.undefined s.pc)) ∧
      (s.cfg.haveSME = true → exec i s = execute v s)

/-- Decode of the 64-bit class (section 2 of 40_sumopa.md). That `UNDEFINED` stops the machine with the fault
`undefined`, and that the fault records `pc`, are DESIGN CHOICES, the spec's own (log entries 7, 9). -/
def Obligations.DoublewordClassDecodeSetsItsVariables : Prop :=
  ∀ (w : Word) (s : State), w &&& 0xFFE00018#32 = 0xA0E00000#32 →
    ∃ (i : Instr) (v : Vars), decodeWord w = some i ∧ v.esize = 64 ∧
      v.a.val = (w.extractLsb' 10 3).toNat ∧ v.b.val = (w.extractLsb' 13 3).toNat ∧
      v.n.val = (w.extractLsb' 5 5).toNat ∧ v.m.val = (w.extractLsb' 16 5).toNat ∧
      v.da = (w.extractLsb' 0 3).toNat ∧ v.subOp = false ∧ v.op1Unsigned = false ∧ v.op2Unsigned = true ∧
      (s.cfg.haveSMEI16I64 = false → exec i s = .fault (.undefined s.pc)) ∧
      (s.cfg.haveSMEI16I64 = true → exec i s = execute v s)

/-- The examples of section 4 of 30_encoding.md, disassembled as its canonical form says. -/
def Obligations.SampleDisassembly : Prop :=
  (decodeWord 0xA0A00000#32).map disassemble = some "SUMOPA ZA0.S, P0/M, P0/M, Z0.B, Z0.B" ∧
  (decodeWord 0xA0F13BC5#32).map disassemble = some "SUMOPA ZA5.D, P6/M, P1/M, Z30.H, Z17.H"

/-! ### The step (20_memory.md, 60_exceptions.md) -/

/-- A step runs the instruction the four bytes at `pc` decode to, least significant byte lowest; the meaning itself
moves `pc`. The fetch is the model's by log entries 14, 15 and 17. -/
def Obligations.StepRunsDecodedInstruction : Prop :=
  ∀ (s : State) (b0 b1 b2 b3 : Byte) (i : Instr),
    s.faultRecord = none → configLegal s.cfg = true → textPlaced s.text = true → s.pc.toNat % 4 = 0 →
    inText s = true → s.mem.read? s.pc.toNat = some b0 → s.mem.read? (s.pc.toNat + 1) = some b1 →
    s.mem.read? (s.pc.toNat + 2) = some b2 → s.mem.read? (s.pc.toNat + 3) = some b3 →
    decodeWord (b3 ++ b2 ++ b1 ++ b0) = some i → step s = exec i s

/-- A word that matches neither class is refused: neither a fault nor a no-op (section 3 of 30_encoding.md; log
entry 16). -/
def Obligations.StepRefusesOtherWords : Prop :=
  ∀ (s : State) (w : Word),
    s.faultRecord = none → configLegal s.cfg = true → textPlaced s.text = true → s.pc.toNat % 4 = 0 →
    inText s = true → s.mem.fetchWord s.pc.toNat = some w →
    w &&& 0xFFE0001C#32 ≠ 0xA0A00000#32 → w &&& 0xFFE00018#32 ≠ 0xA0E00000#32 →
    step s = .refused (.notSumopa w)

/-- The states that have no step, each with its name, in the order they are tested; the clauses exclude each other.
The stops are the spec's own decisions (log entries 6, 9, 14, 15, 17). -/
def Obligations.StatesWithoutStepStopByName : Prop :=
  ∀ s : State,
    (∀ r, s.faultRecord = some r → step s = .fault r) ∧
    (s.faultRecord = none →
      let legal := s.cfg.vl ∈ [128, 256, 512, 1024, 2048] ∧ (s.cfg.haveSMEI16I64 = true → s.cfg.haveSME = true)
      let placed := s.text.base.toNat % 4 = 0 ∧ s.text.base.toNat + 4 * s.text.len < 2 ^ 64
      let aligned := s.pc.toNat % 4 = 0
      let atEnd := s.pc.toNat = s.text.base.toNat + 4 * s.text.len
      let inside := s.text.base.toNat ≤ s.pc.toNat ∧ s.pc.toNat < s.text.base.toNat + 4 * s.text.len
      (¬ legal → step s = .refused .illegalConfig) ∧
      (legal → ¬ placed → step s = .refused .textMisplaced) ∧
      (legal → placed → ¬ aligned → step s = .refused .pcMisaligned) ∧
      (legal → placed → aligned → atEnd → step s = .refused .endOfText) ∧
      (legal → placed → aligned → ¬ atEnd → ¬ inside → step s = .refused .outsideText) ∧
      (legal → placed → aligned → inside → (∃ i < 4, s.mem.read? (s.pc.toNat + i) = none) →
        step s = .refused .textByteAbsent))

/-! ### What each instruction does (40_sumopa.md) -/

/-- The 32-bit class completes with `C <- C + A·B` modulo `2^32` on its tile, `pc` moved by 4 and nothing else
changed: every `Z` and `P` register, every storage vector the tile does not own, mode, memory and parameters (R82,
R86, R87, R48). The tile's place in storage is log entry 10, the predicate bit 11, the wrap 13, `pc` 14. -/
def Obligations.SumopaSAddsMatrixProduct : Prop :=
  ∀ (s : State) (da : Fin 4) (a b : Fin 8) (n m : Fin 32),
    s.cfg.haveSME = true → s.cfg.smeAccessOk = true → s.sm = true → s.zaEn = true →
    ∃ za' : ZAStorage s.cfg.vl,
      exec (.sumopaS da a b n m) s = .next { s with regs := { s.regs with za := za' }, pc := s.pc + 4#64 } ∧
      (∀ row < s.cfg.vl / 32, ∀ col < s.cfg.vl / 32,
        tileElem za' da 32 row col =
          BitVec.ofInt 32 ((tileElem s.regs.za da 32 row col).toNat + dot4 32 s.regs a b n m row col)) ∧
      (∀ j, (∀ row < s.cfg.vl / 32, j ≠ da + 4 * row) → zaVec za' j = zaVec s.regs.za j)

/-- The 64-bit class completes with `C <- C + A·B` modulo `2^64` on its tile, `pc` moved by 4 and nothing else
changed (R83, R86, R87, R48). The tile's place in storage is log entry 10, the predicate bit 11, the wrap 13, `pc` 14. -/
def Obligations.SumopaDAddsMatrixProduct : Prop :=
  ∀ (s : State) (da : Fin 8) (a b : Fin 8) (n m : Fin 32),
    s.cfg.haveSMEI16I64 = true → s.cfg.smeAccessOk = true → s.sm = true → s.zaEn = true →
    ∃ za' : ZAStorage s.cfg.vl,
      exec (.sumopaD da a b n m) s = .next { s with regs := { s.regs with za := za' }, pc := s.pc + 4#64 } ∧
      (∀ row < s.cfg.vl / 64, ∀ col < s.cfg.vl / 64,
        tileElem za' da 64 row col =
          BitVec.ofInt 64 ((tileElem s.regs.za da 64 row col).toNat + dot4 64 s.regs a b n m row col)) ∧
      (∀ j, (∀ row < s.cfg.vl / 64, j ≠ da + 8 * row) → zaVec za' j = zaVec s.regs.za j)

/-- The source's loop, which truncates after each of the four additions and skips Inactive products, gives what one
truncation of the exact sum gives (R86: "Truncating once at the end equals truncating after each of the four
additions"). -/
def Obligations.LoopEqualsOneTruncation : Prop :=
  ∀ (vl : Nat) (v : Vars) (x : Sources vl v.esize) (row col : Nat),
    newElem v x row col =
      BitVec.ofInt v.esize
        ((elem x.operand3 (row * tileDim vl v.esize + col) v.esize).toNat +
          ((List.range 4).map fun k =>
            if activeElem x.mask1 (4 * row + k) (v.esize / 4) = true ∧
                activeElem x.mask2 (4 * col + k) (v.esize / 4) = true then
              (if v.subOp then (-1 : Int) else 1) *
                (intOf (elem x.operand1 (4 * row + k) (v.esize / 4)) v.op1Unsigned *
                  intOf (elem x.operand2 (4 * col + k) (v.esize / 4)) v.op2Unsigned)
            else 0).sum)

/-- The frame of both instructions, bit by bit: a next state differs from the one before in `pc` and in the storage
vectors of the destination tile only (section 8 of 10_state.md). Neither instruction stores to memory. -/
def Obligations.SumopaFrame : Prop :=
  ∀ (i : Instr) (s t : State), exec i s = .next t →
    (∀ (k : Fin 32) (bit : Nat), (t.regs.z[k]).getLsbD bit = (s.regs.z[k]).getLsbD bit) ∧
    (∀ (k : Fin 16) (bit : Nat), (t.regs.p[k]).getLsbD bit = (s.regs.p[k]).getLsbD bit) ∧
    (∀ j bit : Nat, tileOwns s.cfg.vl i.operands.da i.operands.cls.esize j = false →
      (zaVec t.regs.za j).getLsbD bit = (zaVec s.regs.za j).getLsbD bit) ∧
    t.sm = s.sm ∧ t.zaEn = s.zaEn ∧ t.cfg = s.cfg ∧ t.text = s.text ∧ t.faultRecord = s.faultRecord ∧
    (∀ addr : Nat, t.mem.read? addr = s.mem.read? addr)

/-- With no Active element in one of the two sources the instruction changes `pc` and nothing else, the whole of
`ZA` included (R88); only the predicate bits it looks at count. -/
def Obligations.AllInactiveChangesOnlyPc : Prop :=
  (∀ (s : State) (da : Fin 4) (a b : Fin 8) (n m : Fin 32), s.cfg.haveSME = true → s.Enabled →
    ((∀ e < 4 * (s.cfg.vl / 32), (s.regs.pReg a).getLsbD e = false) ∨
      (∀ e < 4 * (s.cfg.vl / 32), (s.regs.pReg b).getLsbD e = false)) →
    exec (.sumopaS da a b n m) s = .next { s with pc := s.pc + 4#64 }) ∧
  (∀ (s : State) (da : Fin 8) (a b : Fin 8) (n m : Fin 32), s.cfg.haveSMEI16I64 = true → s.Enabled →
    ((∀ e < 4 * (s.cfg.vl / 64), (s.regs.pReg a).getLsbD (2 * e) = false) ∨
      (∀ e < 4 * (s.cfg.vl / 64), (s.regs.pReg b).getLsbD (2 * e) = false)) →
    exec (.sumopaD da a b n m) s = .next { s with pc := s.pc + 4#64 })

/-- If the four first-source elements of a row are Inactive, the row is unchanged (R85). -/
def Obligations.InactiveContainerKeepsRow : Prop :=
  (∀ (s : State) (da : Fin 4) (a b : Fin 8) (n m : Fin 32) (row : Nat), s.cfg.haveSME = true → s.Enabled →
    row < s.cfg.vl / 32 → (∀ k < 4, (s.regs.pReg a).getLsbD (4 * row + k) = false) →
    ∃ t, exec (.sumopaS da a b n m) s = .next t ∧
      ∀ col < s.cfg.vl / 32, tileElem t.regs.za da 32 row col = tileElem s.regs.za da 32 row col) ∧
  (∀ (s : State) (da : Fin 8) (a b : Fin 8) (n m : Fin 32) (row : Nat), s.cfg.haveSMEI16I64 = true → s.Enabled →
    row < s.cfg.vl / 64 → (∀ k < 4, (s.regs.pReg a).getLsbD (2 * (4 * row + k)) = false) →
    ∃ t, exec (.sumopaD da a b n m) s = .next t ∧
      ∀ col < s.cfg.vl / 64, tileElem t.regs.za da 64 row col = tileElem s.regs.za da 64 row col)

/-- If the four second-source elements of a column are Inactive, the column is unchanged (R85). -/
def Obligations.InactiveContainerKeepsColumn : Prop :=
  (∀ (s : State) (da : Fin 4) (a b : Fin 8) (n m : Fin 32) (col : Nat), s.cfg.haveSME = true → s.Enabled →
    col < s.cfg.vl / 32 → (∀ k < 4, (s.regs.pReg b).getLsbD (4 * col + k) = false) →
    ∃ t, exec (.sumopaS da a b n m) s = .next t ∧
      ∀ row < s.cfg.vl / 32, tileElem t.regs.za da 32 row col = tileElem s.regs.za da 32 row col) ∧
  (∀ (s : State) (da : Fin 8) (a b : Fin 8) (n m : Fin 32) (col : Nat), s.cfg.haveSMEI16I64 = true → s.Enabled →
    col < s.cfg.vl / 64 → (∀ k < 4, (s.regs.pReg b).getLsbD (2 * (4 * col + k)) = false) →
    ∃ t, exec (.sumopaD da a b n m) s = .next t ∧
      ∀ row < s.cfg.vl / 64, tileElem t.regs.za da 64 row col = tileElem s.regs.za da 64 row col)

/-! ### When an instruction stops (60_exceptions.md) -/

/-- Without its feature an instruction is `Undefined`, whatever else holds: the guard comes before the enable check
(R100, R108). That `UNDEFINED` stops the machine, and that the fault records `pc`, are log entries 7 and 9. -/
def Obligations.UndefinedWithoutFeature : Prop :=
  (∀ (s : State) (da : Fin 4) (a b : Fin 8) (n m : Fin 32), s.cfg.haveSME = false →
    exec (.sumopaS da a b n m) s = .fault (.undefined s.pc)) ∧
  (∀ (s : State) (da : Fin 8) (a b : Fin 8) (n m : Fin 32), s.cfg.haveSMEI16I64 = false →
    exec (.sumopaD da a b n m) s = .fault (.undefined s.pc))

/-- The enable check traps with the reason of its first failing test. The tests and their order are PRESUMED (log
entry 8). -/
def Obligations.EnableCheckTrapsInOrder : Prop :=
  ∀ (i : Instr) (s : State), s.HasFeature i →
    (s.cfg.smeAccessOk = false → exec i s = .fault (.smeAccessTrap .accessTrap s.pc)) ∧
    (s.cfg.smeAccessOk = true → s.sm = false → exec i s = .fault (.smeAccessTrap .notStreaming s.pc)) ∧
    (s.cfg.smeAccessOk = true → s.sm = true → s.zaEn = false →
      exec i s = .fault (.smeAccessTrap .inactiveZA s.pc))

/-- An instruction completes exactly when its feature is present and the enable check passes, whatever the data, and
it is never refused (section 1 of 60_exceptions.md; log entry 8). -/
def Obligations.CompletesExactlyWhenEnabled : Prop :=
  ∀ (i : Instr) (s : State),
    ((∃ t, exec i s = .next t) ↔ s.HasFeature i ∧ s.Enabled) ∧ (∀ r, exec i s ≠ .refused r)

/-- A raise is terminal and precise: it names the raising instruction's address, changes nothing but the fault
record, and every later state is the same faulted one (section 4 of 60_exceptions.md; log entry 9). -/
def Obligations.RaiseIsTerminalAndPrecise : Prop :=
  ∀ (s : State) (r : Fault), s.faultRecord = none → step s = .fault r →
    (r = .undefined s.pc ∨ ∃ reason, r = .smeAccessTrap reason s.pc) ∧
    ∀ k, runFor (k + 1) s = { s with faultRecord := some r } ∧ runEnd (runFor (k + 1) s) = some (.faulted r)

/-! ### Laws of the operation -/

/-- Two instructions of one class give the same state in either order, to the same tile or to different ones (R91
for the same tile; log entries 10 and 13 for the tiles' places and the wrap). -/
def Obligations.SameClassSumopasCommute : Prop :=
  ∀ (i j : Instr) (s : State), i.operands.cls = j.operands.cls → s.HasFeature i → s.Enabled →
    ∃ ti tj t, exec i s = .next ti ∧ exec j ti = .next t ∧ exec j s = .next tj ∧ exec i tj = .next t

/-- A tile element depends on its own row's container of `Zn`, its own column's container of `Zm`, the predicate
bits of these, and its own old value, and on no other register bit (R93, R92). -/
def Obligations.TileLaneReadsOnlyItsInputs : Prop :=
  (∀ (s t t' : State) (r' : Regs s.cfg.vl) (da : Fin 4) (a b : Fin 8) (n m : Fin 32) (row col : Nat),
    row < s.cfg.vl / 32 → col < s.cfg.vl / 32 →
    elem (r'.zReg n) row 32 = elem (s.regs.zReg n) row 32 →
    elem (r'.zReg m) col 32 = elem (s.regs.zReg m) col 32 →
    (∀ k < 4, (r'.pReg a).getLsbD (4 * row + k) = (s.regs.pReg a).getLsbD (4 * row + k)) →
    (∀ k < 4, (r'.pReg b).getLsbD (4 * col + k) = (s.regs.pReg b).getLsbD (4 * col + k)) →
    tileElem r'.za da 32 row col = tileElem s.regs.za da 32 row col →
    exec (.sumopaS da a b n m) s = .next t → exec (.sumopaS da a b n m) { s with regs := r' } = .next t' →
    tileElem t'.regs.za da 32 row col = tileElem t.regs.za da 32 row col) ∧
  (∀ (s t t' : State) (r' : Regs s.cfg.vl) (da : Fin 8) (a b : Fin 8) (n m : Fin 32) (row col : Nat),
    row < s.cfg.vl / 64 → col < s.cfg.vl / 64 →
    elem (r'.zReg n) row 64 = elem (s.regs.zReg n) row 64 →
    elem (r'.zReg m) col 64 = elem (s.regs.zReg m) col 64 →
    (∀ k < 4, (r'.pReg a).getLsbD (2 * (4 * row + k)) = (s.regs.pReg a).getLsbD (2 * (4 * row + k))) →
    (∀ k < 4, (r'.pReg b).getLsbD (2 * (4 * col + k)) = (s.regs.pReg b).getLsbD (2 * (4 * col + k))) →
    tileElem r'.za da 64 row col = tileElem s.regs.za da 64 row col →
    exec (.sumopaD da a b n m) s = .next t → exec (.sumopaD da a b n m) { s with regs := r' } = .next t' →
    tileElem t'.regs.za da 64 row col = tileElem t.regs.za da 64 row col)

/-- The 64-bit class ignores the odd-numbered predicate bits (R85; log entry 11): states that differ only in them end
with the same `ZA`. -/
def Obligations.OddPredicateBitsAreIgnored : Prop :=
  ∀ (s t : State) (r' : Regs s.cfg.vl) (da : Fin 8) (a b : Fin 8) (n m : Fin 32),
    r'.z = s.regs.z → r'.za = s.regs.za →
    (∀ (q : Fin 16) (e : Nat), (r'.p[q]).getLsbD (2 * e) = (s.regs.p[q]).getLsbD (2 * e)) →
    exec (.sumopaD da a b n m) s = .next t →
    ∃ t', exec (.sumopaD da a b n m) { s with regs := r' } = .next t' ∧
      ∀ j bit : Nat, (zaVec t'.regs.za j).getLsbD bit = (zaVec t.regs.za j).getLsbD bit

/-- The four-product sum lies within the ranges of R90, so it never overflows the tile's element. -/
def Obligations.ProductSumStaysInRange : Prop :=
  ∀ (vl : Nat) (r : Regs vl) (a b : Fin 8) (n m : Fin 32) (row col : Nat),
    (-130560 ≤ dot4 32 r a b n m row col ∧ dot4 32 r a b n m row col ≤ 129540) ∧
    (-8589803520 ≤ dot4 64 r a b n m row col ∧ dot4 64 r a b n m row col ≤ 8589541380)

/-- Adding an integer to a bit vector is addition modulo `2^w`, whether the vector is read as unsigned or as signed
(R15, R91; log entry 13). -/
def Obligations.AccumulationWraps : Prop :=
  ∀ (w : Nat) (sum : BitVec w) (prod : Int),
    ((addInt sum prod).toNat : Int) = ((sum.toNat : Int) + prod) % (2 ^ w : Int) ∧
    addInt sum prod = BitVec.ofInt w (sum.toInt + prod)

/-! ### ZA tiles (10_state.md) -/

/-- R20: a tile is read and written whole, as the flat vector whose element `row*dim + col` is the tile's element at
`row`, `col`; reading gives back what was written. -/
def Obligations.TileReadsBackWhatWasWritten : Prop :=
  ∀ (vl esize t : Nat) (za : ZAStorage vl) (v : BitVec (tileDim vl esize * tileDim vl esize * esize)),
    esize = 32 ∨ esize = 64 → t < esize / 8 →
    readTile (writeTile za t esize v) t esize = v ∧
    ∀ row < vl / esize, ∀ col < vl / esize,
      tileElem (writeTile za t esize v) t esize row col = elem v (row * (vl / esize) + col) esize ∧
      elem (readTile za t esize) (row * (vl / esize) + col) esize = tileElem za t esize row col

/-- `ZAt.S` is the union of `ZAt.D` and `ZA(t+4).D`: even rows are rows of the first, odd rows of the second, and a
64-bit element is the concatenation of two 32-bit ones (R36, the layout PRESUMED in log entry 10). -/
def Obligations.WordTileIsTwoDoublewordTiles : Prop :=
  ∀ (vl : Nat) (za : ZAStorage vl) (t : Fin 4) (i c : Nat), i < vl / 64 → c < vl / 64 →
    tileElem za t 64 i c = tileElem za t 32 (2 * i) (2 * c + 1) ++ tileElem za t 32 (2 * i) (2 * c) ∧
    tileElem za (t + 4) 64 i c = tileElem za t 32 (2 * i + 1) (2 * c + 1) ++ tileElem za t 32 (2 * i + 1) (2 * c)

/-- An instruction leaves every tile disjoint from its own as it was: another tile of its element size, and a tile of
the other size with another number modulo 4 (R36, the layout PRESUMED in log entry 10). -/
def Obligations.DisjointTilesAreKept : Prop :=
  ∀ (i : Instr) (s t : State) (tile : Nat), exec i s = .next t →
    (tile < i.operands.cls.tiles → tile ≠ i.operands.da → ∀ row col : Nat,
      tileElem t.regs.za tile i.operands.cls.esize row col = tileElem s.regs.za tile i.operands.cls.esize row col) ∧
    (tile < 4 → tile ≠ i.operands.da % 4 → ∀ row col : Nat,
      tileElem t.regs.za tile 32 row col = tileElem s.regs.za tile 32 row col) ∧
    (tile < 8 → tile % 4 ≠ i.operands.da % 4 → ∀ row col : Nat,
      tileElem t.regs.za tile 64 row col = tileElem s.regs.za tile 64 row col)

/-! ### Program text (20_memory.md) -/

/-- A word placed at an address is fetched from it, whatever memory held (section on fetch of 20_memory.md; the byte
order is log entry 15). -/
def Obligations.PlacedWordIsFetched : Prop :=
  ∀ (m : Memory) (a : Nat) (w : Word), (m.placeWord a w).fetchWord a = some w

/-- `Fetch(base + 4*i) = w_i` for every word of a loaded text, wherever it is placed (R53; log entries 5 and 15). -/
def Obligations.LoadedTextIsFetched : Prop :=
  ∀ (s : State) (base : Addr) (words : List Word) (i : Nat), i < words.length →
    (s.load base words).mem.fetchWord (base.toNat + 4 * i) = words[i]?

/-! ### The invariant and the run (20_memory.md, 70_reset_and_hazards.md) -/

/-- The state after reset: the values the model names (log entries 1 to 4), an empty fault record, and no step,
since no text is placed; a SUMOPA placed there traps, streaming mode being off. -/
def Obligations.ResetStateIsAsNamed : Prop :=
  State.reset.cfg = { haveSME := true, haveSMEI16I64 := true, vl := 128, smeAccessOk := true } ∧
  State.reset.regs = Regs.zero 128 ∧ State.reset.sm = false ∧ State.reset.zaEn = false ∧
  State.reset.pc = 0#64 ∧ State.reset.text.len = 0 ∧ State.reset.mem = [] ∧ State.reset.faultRecord = none ∧
  step State.reset = .refused .endOfText ∧
  step (State.reset.withFetchWord 32 0xA0A00000) = .fault (.smeAccessTrap .notStreaming 0#64)

/-- The invariant holds at reset. -/
def Obligations.ResetMeetsMachineInvariant : Prop := State.reset.Inv

/-- The invariant holds where a text is loaded as premises P-vl, P-text and P-pc say. -/
def Obligations.LoadedTextMeetsMachineInvariant : Prop :=
  ∀ (s : State) (base : Addr) (words : List Word), configLegal s.cfg = true → s.mem.Wf →
    base.toNat % 4 = 0 → base.toNat + 4 * words.length < 2 ^ 64 → (s.load base words).Inv

/-- Every step keeps the invariant: the text stays placed and present, memory canonical, `pc` aligned and within the
text or at its end. -/
def Obligations.StepKeepsMachineInvariant : Prop :=
  ∀ s t : State, s.Inv → step s = .next t → t.Inv

/-- A step that completes moves `pc` by exactly 4 without wrapping and writes nothing but `pc` and `ZA` storage: no
vector or predicate register, no mode bit, no parameter, no byte of the text (section 8 of 10_state.md; `pc` is log
entry 14). -/
def Obligations.StepChangesOnlyPcAndZA : Prop :=
  ∀ s t : State, step s = .next t →
    t.pc.toNat = s.pc.toNat + 4 ∧ t.cfg = s.cfg ∧ t.sm = s.sm ∧ t.zaEn = s.zaEn ∧ t.text = s.text ∧
    t.faultRecord = none ∧ (∀ addr : Nat, t.mem.read? addr = s.mem.read? addr) ∧
    (∀ (k : Fin 32) (bit : Nat), (t.regs.z[k]).getLsbD bit = (s.regs.z[k]).getLsbD bit) ∧
    (∀ (k : Fin 16) (bit : Nat), (t.regs.p[k]).getLsbD bit = (s.regs.p[k]).getLsbD bit)

/-- Every run ends after at most as many steps as there are words left (section 2 of 70_reset_and_hazards.md: "there
are no infinite runs"). -/
def Obligations.EveryRunEnds : Prop :=
  ∀ s : State, s.Inv → ∃ k ≤ s.wordsLeft, (runEnd (runFor k s)).isSome = true

/-- Under the launch premises a loaded text of SUMOPA words whose features are present runs to its end: it has not
ended before its last word, and then it is final, with `pc = base + 4*L` and no fault recorded (section 2 of
70_reset_and_hazards.md; log entries 5, 8, 14, 15). -/
def Obligations.LoadedTextRunsToItsEnd : Prop :=
  ∀ (s : State) (base : Addr) (words : List Word), configLegal s.cfg = true → s.Enabled →
    base.toNat % 4 = 0 → base.toNat + 4 * words.length < 2 ^ 64 →
    (∀ w ∈ words, ∃ i, decodeWord w = some i ∧ s.HasFeature i) →
    (∀ k < words.length, runEnd (runFor k (s.load base words)) = none) ∧
    runEnd (runFor words.length (s.load base words)) = some .final ∧
    (runFor words.length (s.load base words)).pc.toNat = base.toNat + 4 * words.length ∧
    (runFor words.length (s.load base words)).faultRecord = none
end

