-- ==== Sys2Proof/Laws/Bits.lean ====
section
/-! SUPPORT. What the primitives do: reading and writing elements (R12, R13 of 00_scope.md) and adding
integers to a bit vector (R15). -/

namespace Sys2Proof.Machine

variable {w : Nat}

theorem getLsbD_elem (v : BitVec w) (e size i : Nat) :
    (elem v e size).getLsbD i = (decide (i < size) && v.getLsbD (e * size + i)) := by
  simp [elem]

theorem getLsbD_setElem (v : BitVec w) (e size : Nat) (x : BitVec size) (i : Nat) :
    (setElem v e size x).getLsbD i =
      if e * size ≤ i ∧ i < (e + 1) * size ∧ i < w then x.getLsbD (i - e * size) else v.getLsbD i := by
  have hs : (e + 1) * size = e * size + size := by ring
  have hx : i - e * size ≥ size → x.getLsbD (i - e * size) = false := BitVec.getLsbD_of_ge x _
  have hv : i ≥ w → v.getLsbD i = false := BitVec.getLsbD_of_ge v i
  simp only [setElem, BitVec.getLsbD_or, BitVec.getLsbD_and, BitVec.getLsbD_not, BitVec.getLsbD_shiftLeft,
    BitVec.getLsbD_setWidth, BitVec.getLsbD_allOnes]
  split
  · next h =>
    simp [h.2.2, show ¬ i < e * size by omega, show i - e * size < w by omega, show i - e * size < size by omega]
  · next h =>
    by_cases hi : i < w
    · by_cases hl : i < e * size
      · simp [hi, hl]
      · have hsz : ¬ i - e * size < size := by omega
        simp [hi, hl, hsz, hx (by omega)]
    · simp [hi, hv (by omega)]

theorem elem_setElem_same (v : BitVec w) {e size : Nat} (x : BitVec size) (h : (e + 1) * size ≤ w) :
    elem (setElem v e size x) e size = x := by
  ext i hi
  have hs : (e + 1) * size = e * size + size := by ring
  have : (elem (setElem v e size x) e size).getLsbD i = x.getLsbD i := by
    rw [getLsbD_elem, getLsbD_setElem, if_pos (by omega)]
    simp [hi]
  simpa [BitVec.getLsbD_eq_getElem hi] using this

theorem elem_setElem_ne (v : BitVec w) {e e' size : Nat} (x : BitVec size) (h : e' ≠ e) :
    elem (setElem v e size x) e' size = elem v e' size := by
  ext i hi
  have hs : (e + 1) * size = e * size + size := by ring
  have : (elem (setElem v e size x) e' size).getLsbD i = (elem v e' size).getLsbD i := by
    rw [getLsbD_elem, getLsbD_elem, getLsbD_setElem, if_neg]
    rintro ⟨h1, h2, -⟩
    rcases Nat.lt_or_gt_of_ne h with h | h
    · have := Nat.mul_le_mul_right size (show e' + 1 ≤ e from h)
      have : (e' + 1) * size = e' * size + size := by ring
      omega
    · have := Nat.mul_le_mul_right size (show e + 1 ≤ e' from h)
      omega
  simpa [BitVec.getLsbD_eq_getElem hi] using this

/-- Every element written is read back. -/
theorem elem_fillElems (v : BitVec w) {size : Nat} (f : Nat → BitVec size) {count e : Nat}
    (he : e < count) (hw : count * size ≤ w) : elem (fillElems v size f count) e size = f e := by
  induction count with
  | zero => omega
  | succ c ih =>
    have hs : (c + 1) * size = c * size + size := by ring
    by_cases h : e = c
    · subst h
      exact elem_setElem_same _ _ hw
    · rw [fillElems, elem_setElem_ne _ _ h]
      exact ih (by omega) (by omega)

/-- Bits past the elements written keep their value. -/
theorem getLsbD_fillElems_of_le (v : BitVec w) {size : Nat} (f : Nat → BitVec size) {count i : Nat}
    (hi : count * size ≤ i) : (fillElems v size f count).getLsbD i = v.getLsbD i := by
  induction count with
  | zero => rfl
  | succ c ih =>
    have hs : (c + 1) * size = c * size + size := by ring
    rw [fillElems, getLsbD_setElem, if_neg (by omega)]
    exact ih (by omega)

/-- Two vectors with equal elements and equal bits past them are equal. -/
theorem eq_of_elem_eq {size count : Nat} (v v' : BitVec w)
    (h : ∀ e < count, elem v e size = elem v' e size)
    (hh : ∀ i, count * size ≤ i → v.getLsbD i = v'.getLsbD i) : v = v' := by
  apply BitVec.eq_of_getLsbD_eq
  intro i _
  by_cases hi : count * size ≤ i
  · exact hh i hi
  · have hpos : 0 < size := by
      rcases Nat.eq_zero_or_pos size with h0 | h0
      · simp [h0] at hi
      · exact h0
    have he : i / size < count := (Nat.div_lt_iff_lt_mul hpos).2 (by omega)
    have := congrArg (fun x => x.getLsbD (i % size)) (h _ he)
    simp only [getLsbD_elem, Nat.mod_lt _ hpos, decide_true, Bool.true_and] at this
    rwa [Nat.div_add_mod' i size] at this

/-- Writing every element with its own value changes nothing. -/
theorem fillElems_self (v : BitVec w) {size : Nat} (f : Nat → BitVec size) {count : Nat}
    (hw : count * size ≤ w) (hf : ∀ e < count, f e = elem v e size) : fillElems v size f count = v :=
  eq_of_elem_eq (count := count) (size := size) _ _
    (fun e he => by rw [elem_fillElems v f he hw, hf e he])
    (fun _ hi => getLsbD_fillElems_of_le v f hi)

@[simp] theorem addInt_zero (v : BitVec w) : addInt v 0 = v := by
  simp [addInt, trunc, uint]

/-- Truncating after each addition is truncating once (R15). -/
theorem addInt_addInt (v : BitVec w) (x y : Int) : addInt (addInt v x) y = addInt v (x + y) := by
  unfold addInt trunc uint
  apply BitVec.eq_of_toNat_eq
  simp only [BitVec.toNat_ofInt]
  congr 1
  have h : (0 : Int) < 2 ^ w := by positivity
  have hn : (0 : Int) ≤ (↑v.toNat + x) % ((2 ^ w : Nat) : Int) :=
    Int.emod_nonneg _ (by exact_mod_cast h.ne')
  rw [Int.toNat_of_nonneg hn, Int.emod_add_emod, add_assoc]

end Sys2Proof.Machine
end

