-- ==== Sys2Proof/Laws/Decode.lean ====
section
/-! SUPPORT. The encode functions as numbers (R68 of 30_encoding.md): every field in its place. -/

namespace Sys2Proof

theorem toNat_append_eq {k l : Nat} (x : BitVec k) (y : BitVec l) :
    (x ++ y).toNat = x.toNat * 2 ^ l + y.toNat := by
  rw [BitVec.toNat_append, ← Nat.shiftLeft_add_eq_or_of_lt y.isLt, Nat.shiftLeft_eq]

/-- `enc32` (R68): the match value with each field added at its place. -/
theorem encode_sumopaS_toNat (da : Fin 4) (a b : Fin 8) (n m : Fin 32) :
    (encode (.sumopaS da a b n m)).toNat =
      0xA0A00000 + m.val * 2 ^ 16 + b.val * 2 ^ 13 + a.val * 2 ^ 10 + n.val * 2 ^ 5 + da.val := by
  simp only [encode, toNat_append_eq, BitVec.toNat_ofFin, BitVec.toNat_ofNat]
  omega

/-- `enc64` (R68): the match value with each field added at its place. -/
theorem encode_sumopaD_toNat (da : Fin 8) (a b : Fin 8) (n m : Fin 32) :
    (encode (.sumopaD da a b n m)).toNat =
      0xA0E00000 + m.val * 2 ^ 16 + b.val * 2 ^ 13 + a.val * 2 ^ 10 + n.val * 2 ^ 5 + da.val := by
  simp only [encode, toNat_append_eq, BitVec.toNat_ofFin, BitVec.toNat_ofNat]
  omega

/-- The bytes of a word, least significant first, make the word again (R52, R55). -/
theorem wordOfBytes_byteOfWord (w : Word) :
    wordOfBytes (byteOfWord w 0) (byteOfWord w 1) (byteOfWord w 2) (byteOfWord w 3) = w := by
  apply BitVec.eq_of_toNat_eq
  have := w.isLt
  simp only [wordOfBytes, byteOfWord, toNat_append_eq, BitVec.extractLsb'_toNat, Nat.shiftRight_eq_div_pow]
  omega

end Sys2Proof
end

