-- ==== Sys2Proof/Laws/State.lean ====
section
/-! SUPPORT. The updates of the state, one lemma per field per update. -/

namespace Sys2Proof.Machine

section
variable {vl : Nat} (r : Regs vl) (za : ZAStorage vl)

@[simp] theorem Regs.setZA_za : (r.setZA za).za = za := rfl
@[simp] theorem Regs.setZA_z : (r.setZA za).z = r.z := rfl
@[simp] theorem Regs.setZA_p : (r.setZA za).p = r.p := rfl
@[simp] theorem Regs.setZA_zReg (n : Fin 32) : (r.setZA za).zReg n = r.zReg n := rfl
@[simp] theorem Regs.setZA_pReg (n : Fin 8) : (r.setZA za).pReg n = r.pReg n := rfl
@[simp] theorem Regs.setZA_setZA (za' : ZAStorage vl) : (r.setZA za).setZA za' = r.setZA za' := rfl
@[simp] theorem Regs.setZA_self : r.setZA r.za = r := rfl
end

section
variable (s : State) (regs : Regs s.cfg.vl)

@[simp] theorem State.complete_cfg : (s.complete regs).cfg = s.cfg := rfl
@[simp] theorem State.complete_regs : (s.complete regs).regs = regs := rfl
@[simp] theorem State.complete_sm : (s.complete regs).sm = s.sm := rfl
@[simp] theorem State.complete_zaEn : (s.complete regs).zaEn = s.zaEn := rfl
@[simp] theorem State.complete_pc : (s.complete regs).pc = s.pc + 4#64 := rfl
@[simp] theorem State.complete_text : (s.complete regs).text = s.text := rfl
@[simp] theorem State.complete_mem : (s.complete regs).mem = s.mem := rfl
@[simp] theorem State.complete_faultRecord : (s.complete regs).faultRecord = s.faultRecord := rfl
end

section
variable (s : State) (f : Fault)

@[simp] theorem State.recordFault_cfg : (s.recordFault f).cfg = s.cfg := rfl
@[simp] theorem State.recordFault_regs : (s.recordFault f).regs = s.regs := rfl
@[simp] theorem State.recordFault_sm : (s.recordFault f).sm = s.sm := rfl
@[simp] theorem State.recordFault_zaEn : (s.recordFault f).zaEn = s.zaEn := rfl
@[simp] theorem State.recordFault_pc : (s.recordFault f).pc = s.pc := rfl
@[simp] theorem State.recordFault_text : (s.recordFault f).text = s.text := rfl
@[simp] theorem State.recordFault_mem : (s.recordFault f).mem = s.mem := rfl
@[simp] theorem State.recordFault_faultRecord : (s.recordFault f).faultRecord = some f := rfl
end

section
variable (s : State) (base : Addr) (words : List Word)

@[simp] theorem State.load_cfg : (s.load base words).cfg = s.cfg := rfl
@[simp] theorem State.load_regs : (s.load base words).regs = s.regs := rfl
@[simp] theorem State.load_sm : (s.load base words).sm = s.sm := rfl
@[simp] theorem State.load_zaEn : (s.load base words).zaEn = s.zaEn := rfl
@[simp] theorem State.load_pc : (s.load base words).pc = base := rfl
@[simp] theorem State.load_text : (s.load base words).text = { base := base, len := words.length } := rfl
@[simp] theorem State.load_mem : (s.load base words).mem = s.mem.placeText base.toNat words := rfl
@[simp] theorem State.load_faultRecord : (s.load base words).faultRecord = none := rfl
end

end Sys2Proof.Machine
end

