-- ==== Sys2Proof/Laws/Tile.lean ====
section
/-! SUPPORT. What reading and writing a ZA tile does (R20, R34, R36). -/

namespace Sys2Proof.Machine

variable {vl : Nat}

/-- Every row of a tile lies in the storage (R35, R36). -/
theorem tileVec_lt {t esize row : Nat} (ht : t < esize / 8) (hr : row < tileDim vl esize) :
    tileVec t esize row < vl / 8 := by
  unfold tileDim at hr
  unfold tileVec
  have h1 : row * (esize / 8) + esize / 8 ≤ vl / esize * (esize / 8) := by
    rw [← Nat.succ_mul]; exact Nat.mul_le_mul_right _ hr
  have h2 : vl / esize * (esize / 8) ≤ vl / 8 := by
    rw [Nat.le_div_iff_mul_le (by norm_num), mul_assoc]
    exact le_trans (Nat.mul_le_mul_left _ (Nat.div_mul_le_self esize 8)) (Nat.div_mul_le_self vl esize)
  omega

/-- The storage vectors a tile owns are its rows (R36). -/
theorem tileOwns_iff {t esize j : Nat} (hg : 0 < esize / 8) :
    tileOwns vl t esize j = true ↔ ∃ row < tileDim vl esize, j = tileVec t esize row := by
  unfold tileOwns tileVec
  simp only [Bool.and_eq_true, decide_eq_true_eq]
  constructor
  · rintro ⟨⟨h1, h2⟩, h3⟩
    have := Nat.div_add_mod' (j - t) (esize / 8)
    exact ⟨_, h3, by omega⟩
  · rintro ⟨row, hr, rfl⟩
    simp [Nat.mul_mod_left, Nat.mul_div_cancel _ hg, hr]

theorem tileOwns_tileVec {t esize row : Nat} (hg : 0 < esize / 8) (hr : row < tileDim vl esize) :
    tileOwns vl t esize (tileVec t esize row) = true :=
  (tileOwns_iff hg).2 ⟨row, hr, rfl⟩

/-- Element `(row, col)` of the flat vector is the tile's (R20). -/
theorem elem_readTile (za : ZAStorage vl) (t esize : Nat) {row col : Nat} (hr : row < tileDim vl esize)
    (hc : col < tileDim vl esize) :
    elem (readTile za t esize) (row * tileDim vl esize + col) esize = tileElem za t esize row col := by
  have hlt : row * tileDim vl esize + col < tileDim vl esize * tileDim vl esize := by nlinarith
  have hpos : 0 < tileDim vl esize := by omega
  rw [readTile, elem_fillElems _ _ hlt le_rfl, Nat.add_comm, Nat.add_mul_div_right _ _ hpos,
    Nat.div_eq_of_lt hc, Nat.add_mul_mod_self_right, Nat.mod_eq_of_lt hc, Nat.zero_add]

theorem zaVec_eq (za : ZAStorage vl) {j : Nat} (h : j < vl / 8) : zaVec za j = za[j] := by
  simp [zaVec, h]

/-- A storage vector the tile does not own keeps its value. -/
theorem zaVec_writeTile_of_not_owned (za : ZAStorage vl) {t esize : Nat}
    (v : BitVec (tileDim vl esize * tileDim vl esize * esize)) {j : Nat} (h : tileOwns vl t esize j = false) :
    zaVec (writeTile za t esize v) j = zaVec za j := by
  unfold zaVec
  split
  · next hj => simp [writeTile, h]
  · rfl

/-- A row of the tile takes its elements from the flat vector. -/
theorem zaVec_writeTile_row (za : ZAStorage vl) {t esize row : Nat}
    (v : BitVec (tileDim vl esize * tileDim vl esize * esize)) (ht : t < esize / 8)
    (hr : row < tileDim vl esize) :
    zaVec (writeTile za t esize v) (tileVec t esize row) =
      fillElems (zaVec za (tileVec t esize row)) esize
        (fun col => elem v (row * tileDim vl esize + col) esize) (tileDim vl esize) := by
  have hj := tileVec_lt ht hr
  have hg : 0 < esize / 8 := by omega
  have hrow : (tileVec t esize row - t) / (esize / 8) = row := by
    simp [tileVec, Nat.mul_div_cancel _ hg]
  rw [zaVec_eq _ hj, zaVec_eq _ hj]
  simp [writeTile, tileOwns_tileVec hg hr, hrow]

/-- After a tile write, element `(row, col)` of the tile is that of the flat vector (R20, R36). -/
theorem tileElem_writeTile (za : ZAStorage vl) {t esize row col : Nat}
    (v : BitVec (tileDim vl esize * tileDim vl esize * esize)) (ht : t < esize / 8)
    (hr : row < tileDim vl esize) (hc : col < tileDim vl esize) :
    tileElem (writeTile za t esize v) t esize row col = elem v (row * tileDim vl esize + col) esize := by
  rw [tileElem, zaVec_writeTile_row za v ht hr,
    elem_fillElems _ _ hc (by unfold tileDim; exact Nat.div_mul_le_self vl esize)]

/-- Two storages with the same vectors are the same. -/
theorem zaStorage_ext {za za' : ZAStorage vl} (h : ∀ j < vl / 8, zaVec za j = zaVec za' j) : za = za' := by
  apply Vector.ext
  intro j hj
  have := h j hj
  rwa [zaVec_eq _ hj, zaVec_eq _ hj] at this

end Sys2Proof.Machine
end

