-- ==== Sys2Proof/Laws/Exec.lean ====
section
/-! SUPPORT. What the enable check, Execute and the two meanings can answer (R86, R100, R102, R104). -/

namespace Sys2Proof.Machine

/-- The enable check passes exactly when all three conditions hold (R102). -/
theorem enableCheck_eq_none_iff (s : State) :
    enableCheck s = none ↔ s.cfg.smeAccessOk = true ∧ s.sm = true ∧ s.zaEn = true := by
  unfold enableCheck
  cases s.cfg.smeAccessOk <;> cases s.sm <;> cases s.zaEn <;> simp

/-- Execute with the check passed. -/
theorem execute_of_enabled {v : Vars} {s : State} (h : enableCheck s = none) :
    execute v s = .next (s.complete (sumopaRegs v s.regs)) := by
  simp [execute, h]

/-- Execute with the check failed. -/
theorem execute_of_trap {v : Vars} {s : State} {reason : TrapReason} (h : enableCheck s = some reason) :
    execute v s = .fault (.smeAccessTrap reason s.pc) := by
  simp [execute, h, raise]

/-- All that Execute can answer. -/
theorem execute_cases (v : Vars) (s : State) :
    (enableCheck s = none ∧ execute v s = .next (s.complete (sumopaRegs v s.regs))) ∨
      ∃ reason, enableCheck s = some reason ∧ execute v s = .fault (.smeAccessTrap reason s.pc) := by
  cases h : enableCheck s with
  | none => exact .inl ⟨rfl, execute_of_enabled h⟩
  | some reason => exact .inr ⟨reason, rfl, execute_of_trap h⟩

/-- The feature an instruction needs is present (R2). -/
def featureOf (c : Config) : Instr → Bool
  | .sumopaS .. => c.haveSME
  | .sumopaD .. => c.haveSMEI16I64

/-- The variables Decode sets for an instruction (R80, R81). -/
def varsOf : Instr → Vars
  | .sumopaS da a b n m => varsS da a b n m
  | .sumopaD da a b n m => varsD da a b n m

/-- Both instructions: the feature guard, then Execute with the variables Decode set (R23, R108). -/
theorem exec_eq (i : Instr) (s : State) :
    exec i s = if featureOf s.cfg i then execute (varsOf i) s else .fault (.undefined s.pc) := by
  cases i with
  | sumopaS da a b n m => cases h : s.cfg.haveSME <;> simp [exec, execSumopaS, featureOf, varsOf, h, raise]
  | sumopaD da a b n m => cases h : s.cfg.haveSMEI16I64 <;> simp [exec, execSumopaD, featureOf, varsOf, h, raise]

/-- A next state of an instruction is the completed state, and then feature and enables hold. -/
theorem exec_next {i : Instr} {s t : State} (h : exec i s = .next t) :
    featureOf s.cfg i = true ∧ enableCheck s = none ∧ t = s.complete (sumopaRegs (varsOf i) s.regs) := by
  rw [exec_eq] at h
  split at h
  · next hf =>
    rcases execute_cases (varsOf i) s with ⟨he, hx⟩ | ⟨r, -, hx⟩
    · rw [hx] at h
      exact ⟨hf, he, by injection h with h; exact h.symm⟩
    · rw [hx] at h; cases h
  · cases h

/-- The tile an instruction names is a tile of its element size. -/
theorem varsOf_da_lt (i : Instr) : (varsOf i).da < (varsOf i).esize / 8 := by
  cases i with
  | sumopaS da a b n m => exact lt_of_lt_of_eq da.isLt (by decide : 4 = 32 / 8)
  | sumopaD da a b n m => exact lt_of_lt_of_eq da.isLt (by decide : 8 = 64 / 8)

/-- Only the tile's own storage vectors are written (R48). -/
theorem zaVec_sumopaRegs_of_not_owned {vl : Nat} {v : Vars} (r : Regs vl) {j : Nat}
    (h : tileOwns vl v.da v.esize j = false) : zaVec (sumopaRegs v r).za j = zaVec r.za j :=
  zaVec_writeTile_of_not_owned _ _ h

/-- The tile's element after the operation is the one the loops compute (R86). -/
theorem tileElem_sumopaRegs {vl : Nat} {v : Vars} (r : Regs vl) {row col : Nat} (ht : v.da < v.esize / 8)
    (hr : row < tileDim vl v.esize) (hc : col < tileDim vl v.esize) :
    tileElem (sumopaRegs v r).za v.da v.esize row col = newElem v (readSources v r) row col := by
  have hlt : row * tileDim vl v.esize + col < tileDim vl v.esize * tileDim vl v.esize := by nlinarith
  have hpos : 0 < tileDim vl v.esize := by omega
  rw [sumopaRegs, Regs.setZA_za, tileElem_writeTile _ _ ht hr hc, resultTile, elem_fillElems _ _ hlt le_rfl,
    Nat.add_comm, Nat.add_mul_div_right _ _ hpos, Nat.div_eq_of_lt hc, Nat.add_mul_mod_self_right,
    Nat.mod_eq_of_lt hc, Nat.zero_add]

end Sys2Proof.Machine
end

