-- ==== Sys2Proof/Laws/Memory.lean ====
section
/-! SUPPORT. What the memory operations do: a byte written is read back, every other byte is as it was, and
the canonical form is kept. -/

namespace Sys2Proof.Machine

@[simp] theorem Memory.read?_write_same (m : Memory) (a : Nat) (x : Byte) :
    (m.write a x).read? a = some x := by
  induction m with
  | nil => simp [Memory.write, Memory.read?]
  | cons c rest ih =>
    obtain ⟨b, y⟩ := c
    simp only [Memory.write]
    split
    · simp [Memory.read?]
    · split
      · simp [Memory.read?]
      · next h => simp [Memory.read?, h, ih]

theorem Memory.read?_write_ne (m : Memory) {a a' : Nat} (x : Byte) (h : a' ≠ a) :
    (m.write a x).read? a' = m.read? a' := by
  induction m with
  | nil => simp [Memory.write, Memory.read?, h]
  | cons c rest ih =>
    obtain ⟨b, y⟩ := c
    simp only [Memory.write]
    split
    · simp [Memory.read?, h]
    · split
      · next hab => subst hab; simp [Memory.read?, h]
      · simp [Memory.read?, ih]

theorem Memory.mem_write {m : Memory} {a : Nat} {x : Byte} {c : Host.Cell} (h : c ∈ m.write a x) :
    c = (a, x) ∨ c ∈ m := by
  induction m with
  | nil => simpa [Memory.write] using h
  | cons d rest ih =>
    obtain ⟨b, y⟩ := d
    simp only [Memory.write] at h
    split at h
    · simpa using h
    · split at h
      · rcases List.mem_cons.1 h with h | h
        · exact .inl h
        · exact .inr (List.mem_cons_of_mem _ h)
      · rcases List.mem_cons.1 h with h | h
        · exact .inr (h ▸ List.mem_cons_self)
        · exact (ih h).imp id (List.mem_cons_of_mem _)

/-- Writing a byte at a 64-bit address keeps the canonical form. -/
theorem Memory.wf_write {m : Memory} {a : Nat} (x : Byte) (hm : m.Wf) (ha : a < 2 ^ 64) : (m.write a x).Wf := by
  refine ⟨?_, fun c hc => ?_⟩
  · have hp := hm.1
    clear hm
    induction m with
    | nil => simp [Memory.write]
    | cons d rest ih =>
      obtain ⟨b, y⟩ := d
      obtain ⟨h1, h2⟩ := List.pairwise_cons.1 hp
      simp only [Memory.write]
      split
      · next hlt =>
        refine List.pairwise_cons.2 ⟨fun c hc => ?_, hp⟩
        rcases List.mem_cons.1 hc with rfl | hc
        · exact hlt
        · exact hlt.trans (h1 c hc)
      · split
        · next hab => subst hab; exact List.pairwise_cons.2 ⟨h1, h2⟩
        · next hlt hne =>
          refine List.pairwise_cons.2 ⟨fun c hc => ?_, ih h2⟩
          rcases Memory.mem_write hc with rfl | hc
          · exact lt_of_le_of_ne (not_lt.1 hlt) (Ne.symm hne)
          · exact h1 c hc
  · rcases Memory.mem_write hc with rfl | hc
    · exact ha
    · exact hm.2 c hc

theorem Memory.wf_placeWord {m : Memory} {a : Nat} (w : Word) (hm : m.Wf) (ha : a + 4 ≤ 2 ^ 64) :
    (m.placeWord a w).Wf :=
  wf_write _ (wf_write _ (wf_write _ (wf_write _ hm (by omega)) (by omega)) (by omega)) (by omega)

/-- Placing a program within the address space keeps the canonical form. -/
theorem Memory.wf_placeText {m : Memory} {a : Nat} (ws : List Word) (hm : m.Wf)
    (ha : a + 4 * ws.length ≤ 2 ^ 64) : (m.placeText a ws).Wf := by
  induction ws generalizing m a with
  | nil => exact hm
  | cons w ws ih =>
    simp only [List.length_cons] at ha
    exact ih (wf_placeWord w hm (by omega)) (by omega)

/-- Each byte of a placed word is read back; `i` is its place in the word. -/
theorem Memory.read?_placeWord_same (m : Memory) (a : Nat) (w : Word) {i : Nat} (hi : i < 4) :
    (m.placeWord a w).read? (a + i) = some (byteOfWord w i) := by
  unfold Memory.placeWord
  interval_cases i <;> simp [Memory.read?_write_ne]

/-- A byte outside a placed word is as it was. -/
theorem Memory.read?_placeWord_of_outside (m : Memory) {a a' : Nat} (w : Word) (h : a' < a ∨ a + 4 ≤ a') :
    (m.placeWord a w).read? a' = m.read? a' := by
  unfold Memory.placeWord
  rw [read?_write_ne _ _ (by omega), read?_write_ne _ _ (by omega), read?_write_ne _ _ (by omega),
    read?_write_ne _ _ (by omega)]

/-- A byte below a placed program is as it was. -/
theorem Memory.read?_placeText_of_lt (m : Memory) {a a' : Nat} (ws : List Word) (h : a' < a) :
    (m.placeText a ws).read? a' = m.read? a' := by
  induction ws generalizing m a with
  | nil => rfl
  | cons w ws ih =>
    rw [placeText, ih _ (by omega), read?_placeWord_of_outside _ _ (.inl h)]

/-- The memory a program is loaded into keeps the canonical form. -/
theorem State.load_wf {s : State} {base : Addr} {words : List Word} (hm : s.mem.Wf)
    (h : base.toNat + 4 * words.length ≤ 2 ^ 64) : (s.load base words).mem.Wf :=
  Memory.wf_placeText words hm h

theorem State.reset_wf : State.reset.mem.Wf := by decide

end Sys2Proof.Machine
end

