-- ==== Sys2Proof/Laws/PerInstr.lean ====
section
/-! SUPPORT. Statements for all instructions, one lemma per constructor. -/

namespace Sys2Proof.Laws.OperandRange

/-- An instruction is well formed, and its operand tuple names it and nothing else (R63, R68). -/
def Statement (i : Instr) : Prop := i.WellFormed ∧ i.operands.instr? = some i

theorem sumopaS (da : Fin 4) (a b : Fin 8) (n m : Fin 32) : Statement (.sumopaS da a b n m) := by
  simp [Statement, Instr.operands, OperandTuple.instr?, Instr.WellFormed, OperandTuple.WellFormed, IClass.tiles]

theorem sumopaD (da : Fin 8) (a b : Fin 8) (n m : Fin 32) : Statement (.sumopaD da a b n m) := by
  simp [Statement, Instr.operands, OperandTuple.instr?, Instr.WellFormed, OperandTuple.WellFormed, IClass.tiles]

end Sys2Proof.Laws.OperandRange
end

