-- ==== Sys2Proof/Laws/Step.lean ====
section
/-! SUPPORT. What a fetch and a step can answer (R52, R107). -/

namespace Sys2Proof.Machine

/-- The legal parameters (P-vl, D1). -/
theorem configLegal_iff (c : Config) :
    configLegal c = true ↔
      c.vl ∈ [128, 256, 512, 1024, 2048] ∧ (c.haveSMEI16I64 = true → c.haveSME = true) := by
  cases h : c.haveSMEI16I64 <;> cases h' : c.haveSME <;> simp [configLegal, h, h']

/-- A placed text (R53). -/
theorem textPlaced_iff (t : Text) : textPlaced t = true ↔ t.base.toNat % 4 = 0 ∧ t.endAddr < 2 ^ 64 := by
  simp only [textPlaced, Bool.and_eq_true, decide_eq_true_eq]

/-- `pc` within the text (R53). -/
theorem inText_iff (s : State) :
    inText s = true ↔ s.text.base.toNat ≤ s.pc.toNat ∧ s.pc.toNat < s.text.endAddr := by
  simp only [inText, Bool.and_eq_true, decide_eq_true_eq]

/-- In a placed text an aligned `pc` moves on by 4 without wrapping, at most to the end of the text (R40, R54). -/
theorem toNat_pc_add_four {s : State} (h1 : textPlaced s.text = true) (h2 : inText s = true)
    (h3 : s.pc.toNat % 4 = 0) :
    (s.pc + 4#64).toNat = s.pc.toNat + 4 ∧ s.pc.toNat + 4 ≤ s.text.endAddr := by
  rw [textPlaced_iff] at h1
  rw [inText_iff] at h2
  rw [BitVec.toNat_add]
  unfold Text.endAddr at *
  simp only [BitVec.toNat_ofNat]
  omega

/-- All that a successful fetch says of the state. -/
theorem fetch_ok {s : State} {w : Word} (h : fetch s = .ok w) :
    configLegal s.cfg = true ∧ textPlaced s.text = true ∧ s.pc.toNat % 4 = 0 ∧ inText s = true ∧
      s.mem.fetchWord s.pc.toNat = some w := by
  unfold fetch at h
  split at h
  · cases h
  split at h
  · cases h
  split at h
  · cases h
  split at h
  · cases h
  split at h
  · cases h
  next h1 h2 h3 _ h5 =>
  split at h
  · next w' hw =>
    injection h with h
    subst h
    exact ⟨by simpa using h1, by simpa using h2, by simpa using h3, by simpa using h5, hw⟩
  · cases h

/-- A fetched instruction is the decoding of the fetched word. -/
theorem fetchInstr_ok {s : State} {i : Instr} (h : fetchInstr s = .ok i) :
    ∃ w, fetch s = .ok w ∧ decodeWord w = some i := by
  unfold fetchInstr at h
  split at h
  · cases h
  · next w hw =>
    split at h
    · next j hj =>
      injection h with h
      subst h
      exact ⟨w, hw, hj⟩
    · cases h

/-- A step that answers a next state ran a fetched instruction of an unfaulted state. -/
theorem step_next {s t : State} (h : step s = .next t) :
    s.faultRecord = none ∧ ∃ i, fetchInstr s = .ok i ∧ exec i s = .next t := by
  unfold step at h
  split at h
  · cases h
  · next hf =>
    split at h
    · cases h
    · next i hi => exact ⟨hf, i, hi, h⟩

/-- A step of a state with no fault recorded. -/
theorem step_of_unfaulted {s : State} (h : s.faultRecord = none) :
    step s = match fetchInstr s with
      | .error r => .refused r
      | .ok i => exec i s := by
  unfold step
  split
  · next hf => rw [h] at hf; cases hf
  · rfl

/-- A faulted state has no further step (R107). -/
theorem step_of_faulted {s : State} {r : Fault} (h : s.faultRecord = some r) : step s = .fault r := by
  simp [step, h]

/-- Running on after `k` steps. -/
theorem runFor_add (k l : Nat) (s : State) : runFor (k + l) s = runFor l (runFor k s) := by
  induction k generalizing s with
  | zero => simp [runFor]
  | succ k ih =>
    rw [Nat.succ_add]
    exact ih _

end Sys2Proof.Machine
end

