-- ==== Sys2Proof/Tests/Slice0.lean ====
section
/-! SUPPORT. The model's own tests: words written out from the spec's diagrams, the operand ranges, a few single
steps whose results are the spec's test vectors (95_test_vectors.md), and, for each statement with hypotheses, a
witness that meets them. -/

namespace Sys2Proof.Tests

open Sys2Proof Sys2Proof.Machine

/-! ### Decoding, from the patterns of R61 and R62, bit 31 first -/

/-- TB1.2: `1010000 0 10 1 00101 011 010 00100 0 0 0 01`. -/
theorem test_decode_sumopaS : decodeWord 0b10100000101001010110100010000001#32 = some (.sumopaS 1 2 3 4 5) := by decide

/-- TB2.2: `1010000 0 11 1 10001 001 110 11110 0 0 101`. -/
theorem test_decode_sumopaD : decodeWord 0b10100000111100010011101111000101#32 = some (.sumopaD 5 6 1 30 17) := by decide

/-- TB1.3 and TB2.3: every field at its greatest value. -/
theorem test_encode_greatest :
    encode (.sumopaS 3 7 7 31 31) = 0xA0BFFFE3#32 ∧ encode (.sumopaD 7 7 7 31 31) = 0xA0FFFFE7#32 := by
  decide +kernel

/-- The bytes of TB1.2 at increasing addresses, `81 68 A5 A0`, and what follows them. -/
theorem test_decode_bytes :
    decode [0x81#8, 0x68#8, 0xA5#8, 0xA0#8, 0x55#8] = .ok (.sumopaS 1 2 3 4 5, [0x55#8]) := by rfl

theorem test_decode_too_short : decode [0x81#8, 0x68#8, 0xA5#8] = .error .tooShort := by rfl

/-- TB3.1 to TB3.12: one fixed bit away from a SUMOPA word. -/
theorem test_decode_refuses_neighbours :
    [0xA0A00004#32, 0xA0A00008#32, 0xA0A00010#32, 0xA0800000#32, 0xA1A00000#32, 0xA0200000#32, 0x80A00000#32,
      0x20A00000#32, 0xE0A00000#32, 0xA0E00008#32, 0xA0E00010#32, 0xA0C00000#32].map decodeWord =
      List.replicate 12 none := by decide

/-- TB1.8 and TB2.6 through the table's numbering. -/
theorem test_decodeTableWord :
    decodeTableWord 32 0xA0ABD543 = some (.sumopaS 3 5 6 10 11) ∧
    decodeTableWord 32 0xA0E28C27 = some (.sumopaD 7 3 4 1 2) := by decide

/-! ### Operand ranges: one ill-formed tuple for each check of R68 -/

theorem test_wellFormed_greatest :
    OperandTuple.instr? ⟨.word, 3, 7, 7, 31, 31⟩ = some (.sumopaS 3 7 7 31 31) ∧
    OperandTuple.instr? ⟨.doubleword, 7, 7, 7, 31, 31⟩ = some (.sumopaD 7 7 7 31 31) := by decide

theorem test_illFormed_refused :
    ∀ o ∈ [(⟨.word, 4, 0, 0, 0, 0⟩ : OperandTuple), ⟨.doubleword, 8, 0, 0, 0, 0⟩, ⟨.word, 0, 8, 0, 0, 0⟩,
      ⟨.word, 0, 0, 8, 0, 0⟩, ⟨.word, 0, 0, 0, 32, 0⟩, ⟨.word, 0, 0, 0, 0, 32⟩],
      ¬ o.WellFormed ∧ o.instr? = none := by decide

theorem test_illegal_config :
    configLegal ⟨true, true, 192, true⟩ = false ∧ configLegal ⟨false, true, 128, true⟩ = false ∧
    configLegal ⟨false, false, 2048, false⟩ = true := by decide

theorem test_text_placement :
    textPlaced ⟨2#64, 1⟩ = false ∧ textPlaced ⟨0xFFFFFFFFFFFFFFFC#64, 1⟩ = false ∧
    textPlaced ⟨0xFFFFFFFFFFFFFFF8#64, 1⟩ = true := by decide

/-! ### Single steps -/

/-- Registers at `VL = 128` with the given `Z` and `P` registers and storage vectors, all else zero. -/
def regs128 (zs : List (Fin 32 × BitVec 128)) (ps : List (Fin 16 × BitVec 16)) (rows : List (Fin 16 × BitVec 128)) :
    Regs 128 where
  z := zs.foldl (fun v x => v.set x.1 x.2) (Vector.replicate 32 0#128)
  p := ps.foldl (fun v x => v.set x.1 x.2) (Vector.replicate 16 0#16)
  za := rows.foldl (fun v x => v.set x.1 x.2) (Vector.replicate 16 0#128)

/-- An enabled machine with these registers. -/
def machine (zs : List (Fin 32 × BitVec 128)) (ps : List (Fin 16 × BitVec 16)) (rows : List (Fin 16 × BitVec 128)) :
    State where
  cfg := { haveSME := true, haveSMEI16I64 := true, vl := 128, smeAccessOk := true }
  regs := regs128 zs ps rows
  sm := true
  zaEn := true
  pc := 0x2000#64
  text := { base := 0x2000#64, len := 0 }
  mem := []
  faultRecord := none

/-- `machine` about to run one word. -/
def oneWord (s : State) (w : Word) : State := s.load 0x2000#64 [w]

/-- A tile after one step, row by row. -/
def tileAfter (s : State) (t esize : Nat) : List Nat :=
  match step s with
  | .next u => (List.range (u.cfg.vl / esize)).flatMap fun row =>
      (List.range (u.cfg.vl / esize)).map fun col => (tileElem u.regs.za t esize row col).toNat
  | _ => []

/-- TC5: the same register as both sources, signed as the first and unsigned as the second. -/
theorem test_sumopaS_same_register :
    tileAfter (oneWord (machine [(7, 0xFFFFFFFF00000000000000027F8001FF#128)] [(1, 0xFFFF#16)] []) 0xA0A724E0#32) 0 32 =
      [0xFFFFFE03, 0xFFFFFFFE, 0, 0xFFFFFF01, 0x1FE, 4, 0, 0x1FE, 0, 0, 0, 0,
       0xFFFFFE01, 0xFFFFFFFE, 0, 0xFFFFFC04] := by decide +kernel

/-- TC4.6: a product needs both its factors Active. -/
theorem test_sumopaS_predication :
    tileAfter (oneWord (machine [(3, 0x100F0E0D0C0B0A090807060504030201#128),
      (4, 0x01010101010101010101010101010101#128)] [(1, 0x3333#16), (2, 0x6666#16)] []) 0xA0A44462#32) 2 32 =
      [2, 2, 2, 2, 6, 6, 6, 6, 10, 10, 10, 10, 14, 14, 14, 14] := by decide +kernel

/-- TC7: orientation, with only the even predicate bits set. -/
theorem test_sumopaD_orientation :
    tileAfter (oneWord (machine [(1, 0x00080007000600050004000300020001#128),
      (2, 0x00000000000100000000000000000001#128)] [(0, 0x5555#16)]
      [(0, 0x00000000000020000000000000001000#128), (8, 0x00000000000040000000000000003000#128)]) 0xA0E20020#32) 0 64 =
      [0x1001, 0x2002, 0x3005, 0x4006] := by decide +kernel

/-- TC9.1: the extreme product, signed by unsigned. -/
theorem test_sumopaD_extreme :
    tileAfter (oneWord (machine [(0, 0x80008000800080008000800080008000#128),
      (1, 0xFFFFFFFFFFFFFFFFFFFFFFFFFFFFFFFF#128)] [(0, 0xFFFF#16)] []) 0xA0E10000#32) 0 64 =
      [0xFFFFFFFE00020000, 0xFFFFFFFE00020000, 0xFFFFFFFE00020000, 0xFFFFFFFE00020000] := by decide +kernel

/-- TC11.4: streaming mode is tested before `ZA`. -/
theorem test_trap_order :
    step { oneWord (machine [] [] []) 0xA0A00000#32 with sm := false, zaEn := false } =
      .fault (.smeAccessTrap .notStreaming 0x2000#64) := by rfl

/-- TC11.8: `Undefined` comes before the enable check. -/
theorem test_undefined_first :
    step { oneWord (machine [] [] []) 0xA0A00000#32 with
      cfg := { haveSME := false, haveSMEI16I64 := false, vl := 128, smeAccessOk := false }, regs := Regs.zero 128,
      sm := false, zaEn := false } = .fault (.undefined 0x2000#64) := by rfl

/-! ### Witnesses: states and operands that meet the hypotheses of the statements

The names follow the statements' names. -/

/-- An enabled machine about to run `SUMOPA ZA0.S, P0/M, P0/M, Z0.B, Z0.B`. -/
def ready : State := oneWord (machine [(0, 0x0102030405060708090A0B0C0D0E0F10#128)] [(0, 0xFFFF#16)] []) 0xA0A00000#32

/-- The same about to run a 64-bit-class word. -/
def readyD : State := oneWord (machine [] [] []) 0xA0E00000#32

/-- `ready` on an implementation without either feature. -/
def featureless : State :=
  { ready with
    cfg := { haveSME := false, haveSMEI16I64 := false, vl := 128, smeAccessOk := true }
    regs := Regs.zero 128 }

theorem witness_EncodeThenDecode : (Instr.sumopaD 7 7 7 31 31).WellFormed ∧ (Instr.sumopaS 3 7 7 31 31).WellFormed := by
  decide

theorem witness_DecodeThenEncode : decodeWord 0xA0FFFFE7#32 = some (.sumopaD 7 7 7 31 31) := by decide

theorem witness_WordClassDecode :
    0xA0BFFFE3#32 &&& 0xFFE0001C#32 = 0xA0A00000#32 ∧ featureless.cfg.haveSME = false ∧
    ready.cfg.haveSME = true := by decide

theorem witness_DoublewordClassDecode :
    0xA0FFFFE7#32 &&& 0xFFE00018#32 = 0xA0E00000#32 ∧ featureless.cfg.haveSMEI16I64 = false ∧
    ready.cfg.haveSMEI16I64 = true := by decide

theorem witness_StepRunsDecoded :
    ready.faultRecord = none ∧ configLegal ready.cfg = true ∧ textPlaced ready.text = true ∧
    ready.pc.toNat % 4 = 0 ∧ inText ready = true ∧ ready.mem.read? ready.pc.toNat = some 0x00#8 ∧
    ready.mem.read? (ready.pc.toNat + 1) = some 0x00#8 ∧ ready.mem.read? (ready.pc.toNat + 2) = some 0xA0#8 ∧
    ready.mem.read? (ready.pc.toNat + 3) = some 0xA0#8 ∧
    decodeWord (0xA0#8 ++ 0xA0#8 ++ 0x00#8 ++ 0x00#8) = some (.sumopaS 0 0 0 0 0) := by decide

theorem witness_StepRefusesOtherWords :
    let s := oneWord (machine [] [] []) 0xA0A00004#32
    s.faultRecord = none ∧ configLegal s.cfg = true ∧ textPlaced s.text = true ∧ s.pc.toNat % 4 = 0 ∧
    inText s = true ∧ s.mem.fetchWord s.pc.toNat = some 0xA0A00004#32 ∧
    0xA0A00004#32 &&& 0xFFE0001C#32 ≠ 0xA0A00000#32 ∧ 0xA0A00004#32 &&& 0xFFE00018#32 ≠ 0xA0E00000#32 := by decide

/-- One state for each clause: a faulted one, an illegal parameter, a text that would end at `2^64`, a misaligned `pc`,
the end of the text, `pc` one word past the end and one below the start, and an absent last byte. -/
theorem witness_StatesWithoutStep :
    step (ready.recordFault (.undefined 0#64)) = .fault (.undefined 0#64) ∧
    step { ready with cfg := { haveSME := false, haveSMEI16I64 := true, vl := 128, smeAccessOk := true },
                      regs := Regs.zero 128 } = .refused .illegalConfig ∧
    step { ready with text := { base := 0xFFFFFFFFFFFFFFFC#64, len := 1 } } = .refused .textMisplaced ∧
    step { ready with pc := 0x2002#64 } = .refused .pcMisaligned ∧
    step { ready with pc := 0x2004#64 } = .refused .endOfText ∧
    step { ready with pc := 0x2008#64 } = .refused .outsideText ∧
    step { ready with pc := 0x1FFC#64 } = .refused .outsideText ∧
    step { ready with mem := [(0x2000, 0#8), (0x2001, 0#8), (0x2002, 0xA0#8)] } = .refused .textByteAbsent :=
  ⟨by rfl, by rfl, by rfl, by rfl, by rfl, by rfl, by rfl, by rfl⟩

theorem witness_SumopaS : ready.cfg.haveSME = true ∧ ready.Enabled ∧ 3 < ready.cfg.vl / 32 := by decide

theorem witness_SumopaD : readyD.cfg.haveSMEI16I64 = true ∧ readyD.Enabled ∧ 1 < readyD.cfg.vl / 64 := by decide

theorem witness_SumopaFrame :
    (∃ t, exec (.sumopaS 0 0 0 0 0) ready = .next t) ∧ (∃ t, exec (.sumopaD 7 7 7 31 31) readyD = .next t) ∧
    tileOwns 128 0 32 1 = false ∧ tileOwns 128 7 64 14 = false := ⟨⟨_, rfl⟩, ⟨_, rfl⟩, by decide, by decide⟩

/-- `P0` all ones and `P1` all zero for the 32-bit class, either way round; odd bits only for the 64-bit class. -/
theorem witness_AllInactive :
    let s := machine [] [(0, 0xFFFF#16), (2, 0xAAAA#16)] []
    s.cfg.haveSME = true ∧ s.cfg.haveSMEI16I64 = true ∧ s.Enabled ∧
    (∀ e < 4 * (s.cfg.vl / 32), (s.regs.pReg 1).getLsbD e = false) ∧ (s.regs.pReg 0).getLsbD 15 = true ∧
    (∀ e < 4 * (s.cfg.vl / 64), (s.regs.pReg 2).getLsbD (2 * e) = false) := by decide +kernel

/-- The last row or column is Inactive, the others are not (the first clause's `P1`, the second's `P2`). -/
theorem witness_InactiveContainer :
    let s := machine [] [(1, 0x0FFF#16), (2, 0xAAFF#16)] []
    s.cfg.haveSME = true ∧ s.cfg.haveSMEI16I64 = true ∧ s.Enabled ∧
    (∀ k < 4, (s.regs.pReg 1).getLsbD (4 * 3 + k) = false) ∧ 3 < s.cfg.vl / 32 ∧
    (∀ k < 4, (s.regs.pReg 2).getLsbD (2 * (4 * 1 + k)) = false) ∧ 1 < s.cfg.vl / 64 := by decide +kernel

theorem witness_Undefined : featureless.cfg.haveSME = false ∧ featureless.cfg.haveSMEI16I64 = false := by decide

theorem witness_EnableCheckTraps :
    ready.HasFeature (.sumopaS 0 0 0 0 0) ∧ ready.HasFeature (.sumopaD 0 0 0 0 0) ∧
    exec (.sumopaS 0 0 0 0 0) { ready with sm := false } = .fault (.smeAccessTrap .notStreaming 0x2000#64) ∧
    exec (.sumopaS 0 0 0 0 0) { ready with zaEn := false } = .fault (.smeAccessTrap .inactiveZA 0x2000#64) ∧
    exec (.sumopaD 0 0 0 0 0)
      { ready with cfg := { haveSME := true, haveSMEI16I64 := true, vl := 128, smeAccessOk := false },
                   regs := Regs.zero 128 } = .fault (.smeAccessTrap .accessTrap 0x2000#64) :=
  ⟨by decide, by decide, by rfl, by rfl, by rfl⟩

theorem witness_CompletesExactlyWhenEnabled :
    (∃ t, exec (.sumopaD 7 0 0 0 0) ready = .next t) ∧ ready.HasFeature (.sumopaD 7 0 0 0 0) ∧ ready.Enabled :=
  ⟨⟨_, rfl⟩, by decide, by decide⟩

theorem witness_RaiseIsTerminal :
    featureless.faultRecord = none ∧ step featureless = .fault (.undefined 0x2000#64) := ⟨by rfl, by rfl⟩

theorem witness_SameClassCommute :
    (Instr.sumopaS 1 0 0 2 3).operands.cls = (Instr.sumopaS 1 4 5 6 7).operands.cls ∧
    ready.HasFeature (.sumopaS 1 0 0 2 3) ∧ ready.Enabled := by decide

/-- `machine` with a register file given whole. -/
def withRegs (r : Regs 128) : State := { machine [] [] [] with regs := r }

/-- Two register files that agree on lane (0, 1) and differ elsewhere. -/
def laneRegs : Regs 128 := regs128 [(0, 0x00000000000000005555555512345678#128)] [(0, 0xFFFF#16)] []
def laneRegs' : Regs 128 := regs128 [(0, 0x77777777000000005555555512345678#128)] [(0, 0x00FF#16)] []

theorem witness_TileLane_inputs :
    0 < 128 / 32 ∧ 1 < 128 / 32 ∧ elem (laneRegs'.zReg 0) 0 32 = elem (laneRegs.zReg 0) 0 32 ∧
    elem (laneRegs'.zReg 0) 1 32 = elem (laneRegs.zReg 0) 1 32 ∧
    (∀ k < 4, (laneRegs'.pReg 0).getLsbD (4 * 0 + k) = (laneRegs.pReg 0).getLsbD (4 * 0 + k)) ∧
    (∀ k < 4, (laneRegs'.pReg 0).getLsbD (4 * 1 + k) = (laneRegs.pReg 0).getLsbD (4 * 1 + k)) ∧
    tileElem laneRegs'.za 0 32 0 1 = tileElem laneRegs.za 0 32 0 1 ∧ laneRegs' ≠ laneRegs := by decide +kernel

/-- The same for the 64-bit class, at lane (0, 0). -/
theorem witness_TileLane_inputs_D :
    0 < 128 / 64 ∧ elem (laneRegs'.zReg 0) 0 64 = elem (laneRegs.zReg 0) 0 64 ∧
    (∀ k < 4, (laneRegs'.pReg 0).getLsbD (2 * (4 * 0 + k)) = (laneRegs.pReg 0).getLsbD (2 * (4 * 0 + k))) ∧
    tileElem laneRegs'.za 0 64 0 0 = tileElem laneRegs.za 0 64 0 0 := by decide +kernel

/-- Both instructions answer a next state from either. -/
theorem witness_TileLane_next :
    (∃ t, exec (.sumopaS 0 0 0 0 0) (withRegs laneRegs) = .next t) ∧
    (∃ t, exec (.sumopaS 0 0 0 0 0) { withRegs laneRegs with regs := laneRegs' } = .next t) ∧
    (∃ t, exec (.sumopaD 0 0 0 0 0) (withRegs laneRegs) = .next t) ∧
    (∃ t, exec (.sumopaD 0 0 0 0 0) { withRegs laneRegs with regs := laneRegs' } = .next t) :=
  ⟨⟨_, rfl⟩, ⟨_, rfl⟩, ⟨_, rfl⟩, ⟨_, rfl⟩⟩

/-- Predicates that differ in odd bits only. -/
def evenRegs : Regs 128 := regs128 [] [(0, 0x5555#16)] []
def allRegs : Regs 128 := regs128 [] [(0, 0xFFFF#16)] []

theorem witness_OddPredicateBits :
    evenRegs.z = allRegs.z ∧ evenRegs.za = allRegs.za ∧ evenRegs.p ≠ allRegs.p ∧
    (∀ (q : Fin 16) (e : Nat), (evenRegs.p[q]).getLsbD (2 * e) = (allRegs.p[q]).getLsbD (2 * e)) ∧
    ∃ t, exec (.sumopaD 0 0 0 0 0) (withRegs allRegs) = .next t := by
  refine ⟨by decide +kernel, by decide +kernel, by decide +kernel, fun q e => ?_, ⟨_, rfl⟩⟩
  have low : ∀ (q : Fin 16), ∀ e < 8, (evenRegs.p[q]).getLsbD (2 * e) = (allRegs.p[q]).getLsbD (2 * e) := by
    decide +kernel
  by_cases he : e < 8
  · exact low q e he
  · rw [BitVec.getLsbD_of_ge _ _ (by omega), BitVec.getLsbD_of_ge _ _ (by omega)]

theorem witness_TileReadsBack : (3 < 32 / 8 ∧ 3 < 128 / 32) ∧ (7 < 64 / 8 ∧ 1 < 128 / 64) := by decide

theorem witness_WordTileIsTwo : 1 < 128 / 64 ∧ 31 < 2048 / 64 := by decide

/-- Tile 1 beside an instruction on `ZA0.S`, tile 7 beside one on `ZA3.D` and one on `ZA2.S`. -/
theorem witness_DisjointTiles :
    (∃ t, exec (.sumopaS 0 0 0 0 0) ready = .next t) ∧ (∃ t, exec (.sumopaD 3 0 0 0 0) ready = .next t) ∧
    (1 < IClass.word.tiles ∧ 1 ≠ 0) ∧ (7 < IClass.doubleword.tiles ∧ 7 ≠ 3) ∧ (2 < 4 ∧ 2 ≠ 3 % 4) ∧
    (7 < 8 ∧ 7 % 4 ≠ 2 % 4) := ⟨⟨_, rfl⟩, ⟨_, rfl⟩, by decide, by decide, by decide, by decide⟩

theorem witness_LoadedTextIsFetched :
    1 < [0xA0A00000#32, 0xA0E00000#32].length ∧
    ((machine [] [] []).load 0x4000#64 [0xA0A00000#32, 0xA0E00000#32]).mem.fetchWord 0x4004 = some 0xA0E00000#32 := by
  decide

/-- The last place a one-word text may stand, and an empty text. -/
theorem witness_LoadedTextMeetsInvariant :
    configLegal (machine [] [] []).cfg = true ∧ (machine [] [] []).mem.Wf ∧
    (0xFFFFFFFFFFFFFFF8#64).toNat % 4 = 0 ∧ (0xFFFFFFFFFFFFFFF8#64).toNat + 4 * [0xA0A00000#32].length < 2 ^ 64 := by
  decide

theorem witness_ready_inv : ready.Inv := by decide

theorem witness_ready_steps : ∃ t, step ready = .next t := ⟨_, rfl⟩

theorem witness_LoadedTextRuns :
    configLegal (machine [] [] []).cfg = true ∧ (machine [] [] []).Enabled ∧ (0x8000#64).toNat % 4 = 0 ∧
    (0x8000#64).toNat + 4 * [0xA0A10001#32, 0xA0E30045#32].length < 2 ^ 64 ∧
    decodeWord 0xA0A10001#32 = some (.sumopaS 1 0 0 0 1) ∧ decodeWord 0xA0E30045#32 = some (.sumopaD 5 0 0 2 3) ∧
    (machine [] [] []).HasFeature (.sumopaS 1 0 0 0 1) ∧ (machine [] [] []).HasFeature (.sumopaD 5 0 0 2 3) := by decide

end Sys2Proof.Tests
end

section
/-! The round trip of a ZA tile: a flat vector written to a tile is read back (R20). -/

namespace Sys2Proof.Machine

variable {vl : Nat}

/-- Two flat tile vectors with the same element at every row and column are the same. -/
theorem flatTile_ext {esize : Nat} {v v' : BitVec (tileDim vl esize * tileDim vl esize * esize)}
    (h : ∀ row < tileDim vl esize, ∀ col < tileDim vl esize,
      elem v (row * tileDim vl esize + col) esize = elem v' (row * tileDim vl esize + col) esize) : v = v' := by
  apply eq_of_elem_eq v v'
  · intro e he
    have hrow : e / tileDim vl esize < tileDim vl esize := Nat.div_lt_of_lt_mul he
    have hcol : e % tileDim vl esize < tileDim vl esize := Nat.mod_lt _ (Nat.zero_lt_of_lt hrow)
    have := h _ hrow _ hcol
    rwa [Nat.div_add_mod'] at this
  · intro i hi
    rw [BitVec.getLsbD_of_ge v i hi, BitVec.getLsbD_of_ge v' i hi]

/-- Reading a tile after writing a flat vector to it gives that vector (R20). -/
theorem readTile_writeTile (za : ZAStorage vl) {t esize : Nat}
    (v : BitVec (tileDim vl esize * tileDim vl esize * esize)) (ht : t < esize / 8) :
    readTile (writeTile za t esize v) t esize = v :=
  flatTile_ext fun row hr col hc => by
    rw [elem_readTile _ _ _ hr hc, tileElem_writeTile za v ht hr hc]

/-- Settles O29: by the element-wise rules for reading and writing a tile, and the round trip they give. -/
theorem tileReadsBackWhatWasWritten : Obligations.TileReadsBackWhatWasWritten := by
  intro vl esize t za v _ ht
  exact ⟨readTile_writeTile za v ht, fun row hr col hc =>
    ⟨tileElem_writeTile za v ht hr hc, elem_readTile za t esize hr hc⟩⟩

end Sys2Proof.Machine
end

section
/-! The decoder read box by box: what each class's mask fixes, what a decoded instruction says of the word's
fields, and the two diagrams of 30_encoding.md (R61, R62) that follow. -/

namespace Sys2Proof

/-- A box of a diagram holds `c` exactly when each of its bits is the one `c` has there. -/
theorem extractLsb'_eq_iff {w k : Nat} (x : BitVec w) (lo : Nat) (c : BitVec k) :
    x.extractLsb' lo k = c ↔ ∀ i < k, x.getLsbD (lo + i) = c.getLsbD i := by
  rw [BitVec.eq_of_getLsbD_eq_iff]
  exact forall₂_congr fun i hi => by simp [hi]

/-- A masked comparison, bit by bit. -/
theorem and_eq_iff_getLsbD {w : Nat} (x mask c : BitVec w) :
    x &&& mask = c ↔ ∀ i < w, (x.getLsbD i && mask.getLsbD i) = c.getLsbD i := by
  simp only [BitVec.eq_of_getLsbD_eq_iff, BitVec.getLsbD_and]

/-- The 32-bit class's mask and match (R64) are the fixed boxes of its diagram, lowest first (R61). -/
theorem and_maskS_eq_matchS_iff (w : Word) :
    w &&& maskS = matchS ↔
      w.extractLsb' 2 1 = 0#1 ∧ w.extractLsb' 3 1 = 0#1 ∧ w.extractLsb' 4 1 = 0#1 ∧ w.extractLsb' 21 1 = 1#1 ∧
        w.extractLsb' 22 2 = 0b10#2 ∧ w.extractLsb' 24 1 = 0#1 ∧ w.extractLsb' 25 5 = 0b10000#5 ∧
        w.extractLsb' 30 2 = 0b10#2 := by
  simp only [extractLsb'_eq_iff, and_eq_iff_getLsbD, maskS, matchS]
  simp [Nat.forall_lt_succ_right, Nat.le_one_iff_eq_zero_or_eq_one, and_assoc]

/-- The 64-bit class's mask and match (R64) are the fixed boxes of its diagram, lowest first (R62). -/
theorem and_maskD_eq_matchD_iff (w : Word) :
    w &&& maskD = matchD ↔
      w.extractLsb' 3 1 = 0#1 ∧ w.extractLsb' 4 1 = 0#1 ∧ w.extractLsb' 21 1 = 1#1 ∧
        w.extractLsb' 22 2 = 0b11#2 ∧ w.extractLsb' 24 1 = 0#1 ∧ w.extractLsb' 25 5 = 0b10000#5 ∧
        w.extractLsb' 30 2 = 0b10#2 := by
  simp only [extractLsb'_eq_iff, and_eq_iff_getLsbD, maskD, matchD]
  simp [Nat.forall_lt_succ_right, Nat.le_one_iff_eq_zero_or_eq_one, and_assoc]

/-- No word matches both classes: their size boxes, bits 23 and 22, differ (R64). -/
theorem not_matchS_and_matchD (w : Word) : ¬ (w &&& maskS = matchS ∧ w &&& maskD = matchD) := by
  rw [and_maskS_eq_matchS_iff, and_maskD_eq_matchD_iff]
  rintro ⟨⟨-, -, -, -, hsizeS, -⟩, -, -, -, hsizeD, -⟩
  exact absurd (hsizeS.symm.trans hsizeD) (by decide)

/-- A field is an operand exactly when its bits have the operand's number (R63). -/
theorem field_eq_iff (w : Word) (lo width : Nat) (f : Fin (2 ^ width)) :
    field w lo width = f ↔ (w.extractLsb' lo width).toNat = f.val := Fin.ext_iff

/-- A word decodes to a 32-bit-class instruction exactly when it matches the class and its fields are the operands
(R65). -/
theorem decodeWord_eq_sumopaS_iff (w : Word) (da : Fin 4) (a b : Fin 8) (n m : Fin 32) :
    decodeWord w = some (.sumopaS da a b n m) ↔
      w &&& maskS = matchS ∧ field w 0 2 = da ∧ field w 10 3 = a ∧ field w 13 3 = b ∧ field w 5 5 = n ∧
        field w 16 5 = m := by
  unfold decodeWord
  split
  · next hS => simp [hS]
  · next hS => split <;> simp [hS]

/-- A word decodes to a 64-bit-class instruction exactly when it matches the class and its fields are the operands
(R65). -/
theorem decodeWord_eq_sumopaD_iff (w : Word) (da : Fin 8) (a b : Fin 8) (n m : Fin 32) :
    decodeWord w = some (.sumopaD da a b n m) ↔
      w &&& maskD = matchD ∧ field w 0 3 = da ∧ field w 10 3 = a ∧ field w 13 3 = b ∧ field w 5 5 = n ∧
        field w 16 5 = m := by
  unfold decodeWord
  split
  · next hS =>
    have hD : ¬ w &&& maskD = matchD := fun hD => not_matchS_and_matchD w ⟨hS, hD⟩
    simp [hD]
  · split
    · next hD => simp [hD]
    · next hD => simp [hD]

/-- Settles O3: the match is the fixed boxes, the decoded fields are the variable ones. -/
theorem wordClassHasItsDiagram : Obligations.WordClassHasItsDiagram := by
  intro w da a b n m
  simp only [decodeWord_eq_sumopaS_iff, and_maskS_eq_matchS_iff, field_eq_iff]
  exact Iff.of_eq (by ac_rfl)

/-- Settles O4: the match is the fixed boxes, the decoded fields are the variable ones. -/
theorem doublewordClassHasItsDiagram : Obligations.DoublewordClassHasItsDiagram := by
  intro w da a b n m
  simp only [decodeWord_eq_sumopaD_iff, and_maskD_eq_matchD_iff, field_eq_iff]
  exact Iff.of_eq (by ac_rfl)

end Sys2Proof
end

section
/-! The encoder and the decoder undo each other, a word of neither class is refused, and what Decode hands to Execute
for each class (R61 to R68 of 30_encoding.md, R80 and R81 of 40_sumopa.md). -/

namespace Sys2Proof

open Machine

/-- Decoding an encoded instruction gives it back: the encoded word has every box of its class's diagram (R68). -/
theorem decodeWord_encode (i : Instr) : decodeWord (encode i) = some i := by
  cases i with
  | sumopaS da a b n m =>
    refine (wordClassHasItsDiagram _ da a b n m).2 ?_
    simp only [← BitVec.toNat_inj, BitVec.extractLsb'_toNat, Nat.shiftRight_eq_div_pow, encode_sumopaS_toNat,
      BitVec.toNat_ofNat]
    omega
  | sumopaD da a b n m =>
    refine (doublewordClassHasItsDiagram _ da a b n m).2 ?_
    simp only [← BitVec.toNat_inj, BitVec.extractLsb'_toNat, Nat.shiftRight_eq_div_pow, encode_sumopaD_toNat,
      BitVec.toNat_ofNat]
    omega

/-- The bytes of an encoded instruction, followed by any others, decode to it and those others (R55, R60). -/
theorem decode_encodeBytes_append (i : Instr) (rest : List Byte) :
    decode (encodeBytes i ++ rest) = .ok (i, rest) := by
  have hbytes : encodeBytes i = [byteOfWord (encode i) 0, byteOfWord (encode i) 1, byteOfWord (encode i) 2,
      byteOfWord (encode i) 3] := rfl
  simp [hbytes, decode, wordOfBytes_byteOfWord, decodeWord_encode]

/-- Settles O1: the word by its diagram's boxes, the bytes since they make the word again. -/
theorem encodeThenDecodeGivesInstructionBack : Obligations.EncodeThenDecodeGivesInstructionBack :=
  fun i rest _ => ⟨decodeWord_encode i, decode_encodeBytes_append i rest⟩

/-- Where a mask covers a box, the box of a matching word is the match value's (R64). -/
theorem extractLsb'_of_and_eq {w : Nat} {x mask c : BitVec w} (h : x &&& mask = c) {lo k : Nat}
    (hmask : mask.extractLsb' lo k = BitVec.allOnes k) : x.extractLsb' lo k = c.extractLsb' lo k := by
  rw [← h, BitVec.extractLsb'_and, hmask, BitVec.and_allOnes]

/-- Settles O2: the fixed boxes are the match value's and the others the operands', and a word is its boxes one after
the other. -/
theorem decodeThenEncodeGivesWordBack : Obligations.DecodeThenEncodeGivesWordBack := by
  intro w i h
  cases i with
  | sumopaS da a b n m =>
    obtain ⟨hmatch, rfl, rfl, rfl, rfl, rfl⟩ := (decodeWord_eq_sumopaS_iff w da a b n m).1 h
    have htop : w.extractLsb' 21 11 = 0b10100000101#11 := extractLsb'_of_and_eq hmatch (by decide)
    have hzero : w.extractLsb' 2 3 = 0b000#3 := extractLsb'_of_and_eq hmatch (by decide)
    rw [encode, ← htop, ← hzero]
    change w.extractLsb' 21 11 ++ w.extractLsb' 16 5 ++ w.extractLsb' 13 3 ++ w.extractLsb' 10 3 ++ w.extractLsb' 5 5 ++
      w.extractLsb' 2 3 ++ w.extractLsb' 0 2 = w
    repeat rw [BitVec.extractLsb'_append_extractLsb'_eq_extractLsb' (by rfl)]
    exact BitVec.extractLsb'_eq_self
  | sumopaD da a b n m =>
    obtain ⟨hmatch, rfl, rfl, rfl, rfl, rfl⟩ := (decodeWord_eq_sumopaD_iff w da a b n m).1 h
    have htop : w.extractLsb' 21 11 = 0b10100000111#11 := extractLsb'_of_and_eq hmatch (by decide)
    have hzero : w.extractLsb' 3 2 = 0b00#2 := extractLsb'_of_and_eq hmatch (by decide)
    rw [encode, ← htop, ← hzero]
    change w.extractLsb' 21 11 ++ w.extractLsb' 16 5 ++ w.extractLsb' 13 3 ++ w.extractLsb' 10 3 ++ w.extractLsb' 5 5 ++
      w.extractLsb' 3 2 ++ w.extractLsb' 0 3 = w
    repeat rw [BitVec.extractLsb'_append_extractLsb'_eq_extractLsb' (by rfl)]
    exact BitVec.extractLsb'_eq_self
/-- A word is refused exactly when it matches neither class (R65). -/
theorem decodeWord_eq_none_iff (w : Word) :
    decodeWord w = none ↔ w &&& maskS ≠ matchS ∧ w &&& maskD ≠ matchD := by
  unfold decodeWord
  split
  · next hS => simp [hS]
  · next hS =>
    split
    · next hD => simp [hD]
    · next hD => simp [hS, hD]

/-- Settles O5: by the decode algorithm's two tests, which exclude each other. -/
theorem onlyMatchingWordsDecode : Obligations.OnlyMatchingWordsDecode :=
  fun w => ⟨decodeWord_eq_none_iff w, not_matchS_and_matchD w⟩

/-- Settles O6: each word is decoded. -/
theorem sampleWordsDecode : Obligations.SampleWordsDecode := by
  unfold Obligations.SampleWordsDecode
  decide

/-- Settles O9: each word is decoded, then printed. -/
theorem sampleDisassembly : Obligations.SampleDisassembly := by
  have hS : decodeWord 0xA0A00000#32 = some (.sumopaS 0 0 0 0 0) := by decide
  have hD : decodeWord 0xA0F13BC5#32 = some (.sumopaD 5 6 1 30 17) := by decide
  rw [Obligations.SampleDisassembly, hS, hD]
  exact ⟨rfl, rfl⟩

/-- Settles O7: the decoded instruction and the variables Decode sets for it. -/
theorem wordClassDecodeSetsItsVariables : Obligations.WordClassDecodeSetsItsVariables := by
  intro w s hw
  refine ⟨_, varsS (field w 0 2) (field w 10 3) (field w 13 3) (field w 5 5) (field w 16 5),
    (decodeWord_eq_sumopaS_iff w _ _ _ _ _).2 ⟨hw, rfl, rfl, rfl, rfl, rfl⟩,
    rfl, rfl, rfl, rfl, rfl, rfl, rfl, rfl, rfl, fun hf => ?_, fun hf => ?_⟩ <;>
  simp [exec_eq, featureOf, varsOf, hf]

/-- Settles O8: the decoded instruction and the variables Decode sets for it. -/
theorem doublewordClassDecodeSetsItsVariables : Obligations.DoublewordClassDecodeSetsItsVariables := by
  intro w s hw
  refine ⟨_, varsD (field w 0 3) (field w 10 3) (field w 13 3) (field w 5 5) (field w 16 5),
    (decodeWord_eq_sumopaD_iff w _ _ _ _ _).2 ⟨hw, rfl, rfl, rfl, rfl, rfl⟩,
    rfl, rfl, rfl, rfl, rfl, rfl, rfl, rfl, rfl, fun hf => ?_, fun hf => ?_⟩ <;>
  simp [exec_eq, featureOf, varsOf, hf]

end Sys2Proof
end

section
/-! What an instruction answers and when (R100 to R104 of 60_exceptions.md), and what it leaves unchanged outside the
rows of its tile (section 8 of 10_state.md). -/

namespace Sys2Proof.Machine

/-- The feature an instruction needs, as the premises name it and as the guard of its meaning tests it (R2, R121). -/
theorem hasFeature_iff (s : State) (i : Instr) : s.HasFeature i ↔ featureOf s.cfg i = true := by
  cases i <;> exact Iff.rfl

/-- The tile Decode names is the operand tuple's. -/
theorem varsOf_da (i : Instr) : (varsOf i).da = i.operands.da := by cases i <;> rfl

/-- The element size Decode sets is the class's (R80, R81). -/
theorem varsOf_esize (i : Instr) : (varsOf i).esize = i.operands.cls.esize := by cases i <;> rfl

/-- With its feature present an instruction is Execute (R23). -/
theorem exec_of_hasFeature {i : Instr} {s : State} (h : s.HasFeature i) : exec i s = execute (varsOf i) s := by
  rw [exec_eq, if_pos ((hasFeature_iff s i).1 h)]

/-- With its feature present and the enable check passed an instruction completes. -/
theorem exec_of_enabled {i : Instr} {s : State} (hf : s.HasFeature i) (he : s.Enabled) :
    exec i s = .next (s.complete (sumopaRegs (varsOf i) s.regs)) := by
  rw [exec_of_hasFeature hf, execute_of_enabled ((enableCheck_eq_none_iff s).2 he)]

/-- All that an instruction can answer: it completes, enabled and with its feature, or it raises with its own
address. -/
theorem exec_cases (i : Instr) (s : State) :
    (s.HasFeature i ∧ s.Enabled ∧ exec i s = .next (s.complete (sumopaRegs (varsOf i) s.regs))) ∨
      ∃ r, exec i s = .fault r ∧ (r = .undefined s.pc ∨ ∃ reason, r = .smeAccessTrap reason s.pc) := by
  by_cases hf : s.HasFeature i
  · rw [exec_of_hasFeature hf]
    rcases execute_cases (varsOf i) s with ⟨he, hx⟩ | ⟨reason, -, hx⟩
    · exact .inl ⟨hf, (enableCheck_eq_none_iff s).1 he, hx⟩
    · exact .inr ⟨_, hx, .inr ⟨reason, rfl⟩⟩
  · rw [hasFeature_iff] at hf
    exact .inr ⟨_, by rw [exec_eq, if_neg hf], .inl rfl⟩

/-- Settles O20: the guard of each class's Decode. -/
theorem undefinedWithoutFeature : Obligations.UndefinedWithoutFeature := by
  constructor <;> intro s da a b n m hf <;> simp [exec_eq, featureOf, hf]

/-- Settles O21: the enable check names its first failing test. -/
theorem enableCheckTrapsInOrder : Obligations.EnableCheckTrapsInOrder := by
  intro i s hf
  rw [exec_of_hasFeature hf]
  refine ⟨fun ha => ?_, fun ha hsm => ?_, fun ha hsm hza => ?_⟩
  · exact execute_of_trap (by simp [enableCheck, ha])
  · exact execute_of_trap (by simp [enableCheck, ha, hsm])
  · exact execute_of_trap (by simp [enableCheck, ha, hsm, hza])

/-- Settles O22: by all that an instruction can answer. -/
theorem completesExactlyWhenEnabled : Obligations.CompletesExactlyWhenEnabled := by
  intro i s
  rcases exec_cases i s with ⟨hf, he, hx⟩ | ⟨r, hx, -⟩
  · exact ⟨⟨fun _ => ⟨hf, he⟩, fun _ => ⟨_, hx⟩⟩, fun r hr => by cases hx.symm.trans hr⟩
  · refine ⟨⟨?_, fun ⟨hf, he⟩ => ⟨_, exec_of_enabled hf he⟩⟩, fun r' hr => by cases hx.symm.trans hr⟩
    rintro ⟨t, ht⟩
    cases hx.symm.trans ht

/-- Settles O16: a next state is the completed one, whose registers differ in the tile's own rows only. -/
theorem sumopaFrame : Obligations.SumopaFrame := by
  intro i s t h
  obtain ⟨-, -, rfl⟩ := exec_next h
  refine ⟨fun _ _ => rfl, fun _ _ => rfl, fun j bit hj => ?_, rfl, rfl, rfl, rfl, rfl, fun _ => rfl⟩
  rw [← varsOf_da, ← varsOf_esize] at hj
  exact congrArg (·.getLsbD bit) (zaVec_sumopaRegs_of_not_owned s.regs hj)

end Sys2Proof.Machine
end

section
/-! The fetch and the step: what each state answers (R52 to R55 of 20_memory.md), and the program text as it is
fetched. -/

namespace Sys2Proof.Machine

/-! ### Words in memory -/

/-- A fetch finds the word of the four bytes at its address (R52, R55). -/
theorem Memory.fetchWord_of_read? {m : Memory} {a : Nat} {b0 b1 b2 b3 : Byte} (h0 : m.read? a = some b0)
    (h1 : m.read? (a + 1) = some b1) (h2 : m.read? (a + 2) = some b2) (h3 : m.read? (a + 3) = some b3) :
    m.fetchWord a = some (wordOfBytes b0 b1 b2 b3) := by
  simp [fetchWord, h0, h1, h2, h3]

/-- A fetch fails exactly where one of its four bytes was never placed (R53). -/
theorem Memory.fetchWord_eq_none_iff (m : Memory) (a : Nat) :
    m.fetchWord a = none ↔ ∃ i < 4, m.read? (a + i) = none := by
  constructor
  · intro h
    by_contra hall
    push Not at hall
    have hbyte : ∀ i < 4, ∃ b, m.read? (a + i) = some b := fun i hi => Option.ne_none_iff_exists'.1 (hall i hi)
    obtain ⟨b0, h0⟩ := hbyte 0 (by omega)
    obtain ⟨b1, h1⟩ := hbyte 1 (by omega)
    obtain ⟨b2, h2⟩ := hbyte 2 (by omega)
    obtain ⟨b3, h3⟩ := hbyte 3 (by omega)
    cases h.symm.trans (fetchWord_of_read? h0 h1 h2 h3)
  · rintro ⟨i, hi, h⟩
    unfold fetchWord
    split
    · next h0 h1 h2 h3 => interval_cases i <;> simp_all
    · rfl

/-- A fetch depends on its four bytes only. -/
theorem Memory.fetchWord_congr {m m' : Memory} {a : Nat} (h : ∀ i < 4, m.read? (a + i) = m'.read? (a + i)) :
    m.fetchWord a = m'.fetchWord a := by
  have h0 : m.read? a = m'.read? a := h 0 (by omega)
  rw [fetchWord, h0, h 1 (by omega), h 2 (by omega), h 3 (by omega), fetchWord]

/-- Settles O32: each byte is read back, and the bytes make the word again. -/
theorem placedWordIsFetched : Obligations.PlacedWordIsFetched := by
  intro m a w
  rw [Memory.fetchWord_of_read? (a := a) (m.read?_placeWord_same a w (by omega : 0 < 4))
    (m.read?_placeWord_same a w (by omega : 1 < 4)) (m.read?_placeWord_same a w (by omega : 2 < 4))
    (m.read?_placeWord_same a w (by omega : 3 < 4)), wordOfBytes_byteOfWord]

/-- Word `i` of a placed program is fetched from its place (R53). -/
theorem Memory.fetchWord_placeText (m : Memory) (a : Nat) (ws : List Word) {i : Nat} (hi : i < ws.length) :
    (m.placeText a ws).fetchWord (a + 4 * i) = ws[i]? := by
  induction ws generalizing m a i with
  | nil => simp at hi
  | cons w ws ih =>
    rw [placeText]
    cases i with
    | zero =>
      exact (fetchWord_congr fun k hk => read?_placeText_of_lt (m.placeWord a w) ws (by omega)).trans
        (placedWordIsFetched m a w)
    | succ i =>
      rw [show a + 4 * (i + 1) = a + 4 + 4 * i by ring]
      exact ih _ _ (Nat.lt_of_succ_lt_succ hi)

/-- Settles O33: the loaded memory is the placed program. -/
theorem loadedTextIsFetched : Obligations.LoadedTextIsFetched :=
  fun s base words _ hi => s.mem.fetchWord_placeText base.toNat words hi

/-- Every byte of a placed program is present. -/
theorem Memory.isSome_read?_placeText (m : Memory) (a : Nat) (ws : List Word) {j : Nat} (hj : j < 4 * ws.length) :
    ((m.placeText a ws).read? (a + j)).isSome = true := by
  have hword : j / 4 < ws.length := by omega
  have hfetch := m.fetchWord_placeText a ws hword
  rw [List.getElem?_eq_getElem hword] at hfetch
  rw [Option.isSome_iff_ne_none]
  intro hnone
  have : (m.placeText a ws).fetchWord (a + 4 * (j / 4)) = none :=
    (fetchWord_eq_none_iff _ _).2 ⟨j % 4, by omega, by rwa [show a + 4 * (j / 4) + j % 4 = a + j by omega]⟩
  cases hfetch.symm.trans this

/-! ### What a fetch and a step answer -/

/-- A fetch succeeds exactly in a state that passes every check of the fetch stage. -/
theorem fetch_eq_ok_iff (s : State) (w : Word) :
    fetch s = .ok w ↔
      configLegal s.cfg = true ∧ textPlaced s.text = true ∧ s.pc.toNat % 4 = 0 ∧ inText s = true ∧
        s.mem.fetchWord s.pc.toNat = some w := by
  refine ⟨fetch_ok, ?_⟩
  rintro ⟨hcfg, htext, halign, hin, hword⟩
  have hend : s.pc.toNat ≠ s.text.endAddr := ((inText_iff s).1 hin).2.ne
  simp [fetch, hcfg, htext, halign, hin, hend, hword]

section
variable {s : State} (hfault : s.faultRecord = none)
include hfault

/-- A step of a state whose fetch fails. -/
theorem step_of_fetch_error {r : Refusal} (h : fetch s = .error r) : step s = .refused r := by
  simp [step_of_unfaulted hfault, fetchInstr, h]

/-- A step of a state whose fetched word decodes. -/
theorem step_of_fetch_decoded {w : Word} {i : Instr} (h : fetch s = .ok w) (hw : decodeWord w = some i) :
    step s = exec i s := by
  simp [step_of_unfaulted hfault, fetchInstr, h, hw]

/-- A step of a state whose fetched word does not decode (R71). -/
theorem step_of_fetch_undecoded {w : Word} (h : fetch s = .ok w) (hw : decodeWord w = none) :
    step s = .refused (.notSumopa w) := by
  simp [step_of_unfaulted hfault, fetchInstr, h, hw]

end

/-- Settles O10: the fetch finds the word of the four bytes. -/
theorem stepRunsDecodedInstruction : Obligations.StepRunsDecodedInstruction := by
  intro s b0 b1 b2 b3 i hfault hcfg htext halign hin h0 h1 h2 h3 hdec
  exact step_of_fetch_decoded hfault
    ((fetch_eq_ok_iff s _).2 ⟨hcfg, htext, halign, hin, Memory.fetchWord_of_read? h0 h1 h2 h3⟩) hdec

/-- Settles O11: the fetch succeeds and the word has no decoding. -/
theorem stepRefusesOtherWords : Obligations.StepRefusesOtherWords := by
  intro s w hfault hcfg htext halign hin hword hS hD
  exact step_of_fetch_undecoded hfault ((fetch_eq_ok_iff s w).2 ⟨hcfg, htext, halign, hin, hword⟩)
    ((decodeWord_eq_none_iff w).2 ⟨hS, hD⟩)

/-- Settles O12: each check of the fetch stage, with the checks before it passed. -/
theorem statesWithoutStepStopByName : Obligations.StatesWithoutStepStopByName := by
  intro s
  refine ⟨fun r hr => step_of_faulted hr, fun hfault => ?_⟩
  intro legal placed aligned atEnd inside
  have hlegal : configLegal s.cfg = true ↔ legal := configLegal_iff s.cfg
  have hplaced : textPlaced s.text = true ↔ placed := textPlaced_iff s.text
  have haligned : s.pc.toNat % 4 = 0 ↔ aligned := Iff.rfl
  have hatEnd : s.pc.toNat = s.text.endAddr ↔ atEnd := Iff.rfl
  have hinside : inText s = true ↔ inside := inText_iff s
  refine ⟨fun h1 => ?_, fun h1 h2 => ?_, fun h1 h2 h3 => ?_, fun h1 h2 h3 h4 => ?_, fun h1 h2 h3 h4 h5 => ?_,
    fun h1 h2 h3 h5 habsent => ?_⟩ <;> apply step_of_fetch_error hfault
  · simp [fetch, mt hlegal.1 h1]
  · simp [fetch, hlegal.2 h1, mt hplaced.1 h2]
  · simp [fetch, hlegal.2 h1, hplaced.2 h2, mt haligned.1 h3]
  · have halignedEnd : s.text.endAddr % 4 = 0 := hatEnd.2 h4 ▸ h3
    simp [fetch, hlegal.2 h1, hplaced.2 h2, hatEnd.2 h4, halignedEnd]
  · simp [fetch, hlegal.2 h1, hplaced.2 h2, haligned.2 h3, mt hatEnd.1 h4, mt hinside.1 h5]
  · have h4 : s.pc.toNat ≠ s.text.endAddr := h5.2.ne
    simp [fetch, hlegal.2 h1, hplaced.2 h2, haligned.2 h3, h4, hinside.2 h5,
      (Memory.fetchWord_eq_none_iff s.mem s.pc.toNat).2 habsent]

end Sys2Proof.Machine
end

section
/-! The machine's invariant, kept by every step, and how runs end (R107 of 60_exceptions.md, R121 and R123 of
70_reset_and_hazards.md). -/

namespace Sys2Proof.Machine

/-! ### The invariant -/

/-- All that a step with a next state does: it completes one instruction of a state that passes every check of the
fetch stage, and `pc` grows by 4 without wrapping, at most to the end of the text. -/
theorem step_next_complete {s t : State} (h : step s = .next t) :
    s.faultRecord = none ∧ s.pc.toNat % 4 = 0 ∧ inText s = true ∧ t.pc.toNat = s.pc.toNat + 4 ∧
      s.pc.toNat + 4 ≤ s.text.endAddr ∧ ∃ i, t = s.complete (sumopaRegs (varsOf i) s.regs) := by
  obtain ⟨hfault, i, hi, hexec⟩ := step_next h
  obtain ⟨w, hfetch, -⟩ := fetchInstr_ok hi
  obtain ⟨-, htext, halign, hin, -⟩ := fetch_ok hfetch
  obtain ⟨-, -, rfl⟩ := exec_next hexec
  obtain ⟨hpc, hend⟩ := toNat_pc_add_four htext hin halign
  exact ⟨hfault, halign, hin, hpc, hend, i, rfl⟩

/-- Settles O37: a step moves `pc` to the next word or the end of the text, and writes nothing else the invariant
speaks of. -/
theorem stepKeepsMachineInvariant : Obligations.StepKeepsMachineInvariant := by
  rintro s t ⟨hcfg, htext, hmem, hpresent, hfault, -, -, -⟩ h
  obtain ⟨-, halign, hin, hpc, hend, i, rfl⟩ := step_next_complete h
  obtain ⟨hlow, -⟩ := (inText_iff s).1 hin
  exact ⟨hcfg, htext, hmem, hpresent, hfault, by omega, hpc ▸ hlow.trans (Nat.le_add_right _ 4), hpc ▸ hend⟩

/-- Settles O38: the completed state differs from the one before in `pc` and `ZA` only. -/
theorem stepChangesOnlyPcAndZA : Obligations.StepChangesOnlyPcAndZA := by
  intro s t h
  obtain ⟨hfault, -, -, hpc, -, i, rfl⟩ := step_next_complete h
  exact ⟨hpc, rfl, rfl, rfl, rfl, hfault, fun _ => rfl, fun _ _ => rfl, fun _ _ => rfl⟩

/-- Settles O35: reset places an empty text at address 0. -/
theorem resetMeetsMachineInvariant : Obligations.ResetMeetsMachineInvariant := by
  unfold Obligations.ResetMeetsMachineInvariant
  decide

/-- Settles O34: each value is the one the reset state is built with, and the two steps are run. -/
theorem resetStateIsAsNamed : Obligations.ResetStateIsAsNamed :=
  ⟨rfl, rfl, rfl, rfl, rfl, rfl, rfl, rfl, rfl, rfl⟩

/-- Settles O36: the placed program is present and keeps memory canonical. -/
theorem loadedTextMeetsMachineInvariant : Obligations.LoadedTextMeetsMachineInvariant := by
  intro s base words hcfg hmem halign hend
  exact ⟨hcfg, (textPlaced_iff _).2 ⟨halign, hend⟩, State.load_wf hmem hend.le,
    fun _ hj => s.mem.isSome_read?_placeText base.toNat words hj, rfl, halign, le_rfl, Nat.le_add_right _ _⟩

/-! ### Raises -/

theorem advance_of_next {s t : State} (h : step s = .next t) : advance s = t := by simp [advance, h]

theorem advance_of_fault {s : State} {r : Fault} (h : step s = .fault r) : advance s = s.recordFault r := by
  simp [advance, h]

/-- A run of a faulted state stays there (R107). -/
theorem runFor_of_faulted {s : State} {r : Fault} (h : s.faultRecord = some r) (k : Nat) : runFor k s = s := by
  induction k with
  | zero => rfl
  | succ k ih =>
    have hstay : advance s = s := by
      rw [advance_of_fault (step_of_faulted h), State.recordFault, ← h]
    rw [runFor, hstay, ih]

/-- A run ends faulted where a fault is recorded (R123). -/
theorem runEnd_of_faulted {s : State} {r : Fault} (h : s.faultRecord = some r) :
    runEnd s = some (.faulted r) := by
  simp [runEnd, h]

/-- Settles O23: only the instruction itself raises, and the faulted state it leaves has no further step. -/
theorem raiseIsTerminalAndPrecise : Obligations.RaiseIsTerminalAndPrecise := by
  intro s r hfault h
  refine ⟨?_, fun k => ?_⟩
  · rw [step_of_unfaulted hfault] at h
    split at h
    · cases h
    · next i _ =>
      rcases exec_cases i s with ⟨-, -, hx⟩ | ⟨r', hx, hr'⟩
      · cases hx.symm.trans h
      · cases hx.symm.trans h
        exact hr'
  · have hrun : runFor (k + 1) s = s.recordFault r := by
      rw [runFor, advance_of_fault h, runFor_of_faulted rfl]
    rw [hrun]
    exact ⟨rfl, runEnd_of_faulted rfl⟩

/-! ### Ends of runs -/

/-- A run whose next step is refused has ended (R123). -/
theorem isSome_runEnd_of_refused {s : State} {r : Refusal} (h : step s = .refused r) :
    (runEnd s).isSome = true := by
  unfold runEnd
  split
  · rfl
  · cases r <;> simp [h]

/-- A run whose next step completes has not ended (R123). -/
theorem runEnd_of_next {s t : State} (h : step s = .next t) : runEnd s = none := by
  simp [runEnd, (step_next h).1, h]

/-- A run that has reached the end of its text without a fault is final (R53, R123). -/
theorem runEnd_of_endOfText {s : State} (hfault : s.faultRecord = none) (hcfg : configLegal s.cfg = true)
    (htext : textPlaced s.text = true) (hpc : s.pc.toNat = s.text.endAddr) : runEnd s = some .final := by
  have halign : s.pc.toNat % 4 = 0 := by
    have := ((textPlaced_iff s.text).1 htext).1
    rw [hpc, Text.endAddr]
    omega
  obtain ⟨-, -, -, hatEnd, -⟩ := (statesWithoutStepStopByName s).2 hfault
  have hstep : step s = .refused .endOfText :=
    hatEnd ((configLegal_iff _).1 hcfg) ((textPlaced_iff _).1 htext) halign hpc
  simp [runEnd, hfault, hstep]

/-- A step that completes leaves one word less. -/
theorem wordsLeft_of_next {s t : State} (h : step s = .next t) : t.wordsLeft + 1 = s.wordsLeft := by
  obtain ⟨-, -, -, hpc, hend, i, rfl⟩ := step_next_complete h
  rw [State.wordsLeft, State.wordsLeft, hpc, State.complete_text]
  omega

/-- Settles O39: by induction on the words left; a step completes and leaves one word less, or the run ends. -/
theorem everyRunEnds : Obligations.EveryRunEnds := by
  intro s hinv
  induction hn : s.wordsLeft generalizing s with
  | zero =>
    obtain ⟨hcfg, htext, -, -, hfault, halign, hlow, hhigh⟩ := hinv
    have hbase := ((textPlaced_iff s.text).1 htext).1
    have hpc : s.pc.toNat = s.text.endAddr := by
      unfold State.wordsLeft at hn
      unfold Text.endAddr at *
      omega
    exact ⟨0, le_rfl, by rw [runFor, runEnd_of_endOfText hfault hcfg htext hpc]; rfl⟩
  | succ n ih =>
    cases hstep : step s with
    | next t =>
      have hleft := wordsLeft_of_next hstep
      obtain ⟨k, hk, hend⟩ := ih t (stepKeepsMachineInvariant s t hinv hstep) (by omega)
      exact ⟨k + 1, by omega, by rwa [runFor, advance_of_next hstep]⟩
    | fault r =>
      exact ⟨1, by omega, by rw [runFor, runFor, advance_of_fault hstep, runEnd_of_faulted rfl]; rfl⟩
    | refused r => exact ⟨0, by omega, isSome_runEnd_of_refused hstep⟩

/-! ### A loaded text runs to its end -/

/-- What lets every word of the text run: legal parameters, a placed text, no fault recorded, the machine enabled, and
at each place of the text a word that decodes to an instruction whose feature is present. -/
structure State.Runnable (s : State) : Prop where
  cfg : configLegal s.cfg = true
  text : textPlaced s.text = true
  unfaulted : s.faultRecord = none
  enabled : s.Enabled
  words : ∀ j < s.text.len, ∃ w i, s.mem.fetchWord (s.text.base.toNat + 4 * j) = some w ∧
    decodeWord w = some i ∧ s.HasFeature i

/-- At word `j` of its text a runnable state steps to a runnable state at word `j + 1`. -/
theorem State.Runnable.exists_step {s : State} (h : s.Runnable) {j : Nat} (hj : j < s.text.len)
    (hpc : s.pc.toNat = s.text.base.toNat + 4 * j) :
    ∃ t, step s = .next t ∧ t.Runnable ∧ t.text = s.text ∧
      t.pc.toNat = s.text.base.toNat + 4 * (j + 1) := by
  obtain ⟨hcfg, htext, hfault, henabled, hwords⟩ := h
  obtain ⟨w, i, hword, hdec, hfeat⟩ := hwords j hj
  have hbase := ((textPlaced_iff s.text).1 htext).1
  have hin : inText s = true := (inText_iff s).2 (by unfold Text.endAddr; omega)
  have hfetch : fetch s = .ok w := (fetch_eq_ok_iff s w).2 ⟨hcfg, htext, by omega, hin, by rwa [hpc]⟩
  have hnext : step s = .next (s.complete (sumopaRegs (varsOf i) s.regs)) := by
    rw [step_of_fetch_decoded hfault hfetch hdec, exec_of_enabled hfeat henabled]
  obtain ⟨-, -, -, hpc', -, -⟩ := step_next_complete hnext
  refine ⟨_, hnext, ⟨hcfg, htext, hfault, henabled, fun k hk => ?_⟩, rfl, by omega⟩
  obtain ⟨w', i', hword', hdec', hfeat'⟩ := hwords k hk
  exact ⟨w', i', hword', hdec', by cases i' <;> exact hfeat'⟩

/-- A runnable state at the start of its text runs word after word, and stays runnable. -/
theorem State.Runnable.after {s : State} (h : s.Runnable) (hpc : s.pc = s.text.base) {k : Nat}
    (hk : k ≤ s.text.len) :
    (runFor k s).Runnable ∧ (runFor k s).text = s.text ∧
      (runFor k s).pc.toNat = s.text.base.toNat + 4 * k := by
  induction k with
  | zero => exact ⟨h, rfl, by rw [runFor, hpc]; omega⟩
  | succ k ih =>
    obtain ⟨hrun, htext, hpck⟩ := ih (by omega)
    obtain ⟨t, hnext, ht, htext', hpc'⟩ :=
      hrun.exists_step (j := k) (by rw [htext]; omega) (by rw [htext]; exact hpck)
    rw [runFor_add, runFor, runFor, advance_of_next hnext]
    rw [htext] at htext' hpc'
    exact ⟨ht, htext', hpc'⟩

/-- A loaded text of decoding words whose features are present is runnable in an enabled machine. -/
theorem State.load_runnable {s : State} {base : Addr} {words : List Word} (hcfg : configLegal s.cfg = true)
    (henabled : s.Enabled) (halign : base.toNat % 4 = 0) (hend : base.toNat + 4 * words.length < 2 ^ 64)
    (hwords : ∀ w ∈ words, ∃ i, decodeWord w = some i ∧ s.HasFeature i) : (s.load base words).Runnable := by
  refine ⟨hcfg, (textPlaced_iff _).2 ⟨halign, hend⟩, rfl, henabled, fun j hj => ?_⟩
  obtain ⟨i, hdec, hfeat⟩ := hwords _ (List.getElem_mem hj)
  refine ⟨_, i, ?_, hdec, by cases i <;> exact hfeat⟩
  exact (loadedTextIsFetched s base words j hj).trans (List.getElem?_eq_getElem hj)

/-- Settles O40: the loaded state is runnable, so the run goes on word by word, and at the end of the text it is
final. -/
theorem loadedTextRunsToItsEnd : Obligations.LoadedTextRunsToItsEnd := by
  intro s base words hcfg henabled halign hend hwords
  have hload := State.load_runnable hcfg henabled halign hend hwords
  refine ⟨fun k hk => ?_, ?_⟩
  · obtain ⟨hrun, htext, hpc⟩ := hload.after rfl hk.le
    obtain ⟨t, hnext, -⟩ := hrun.exists_step (j := k) (by rwa [htext]) (by rw [htext]; exact hpc)
    exact runEnd_of_next hnext
  · obtain ⟨hrun, htext, hpc⟩ := hload.after rfl le_rfl
    have hatEnd := hpc.trans (congrArg Text.endAddr htext).symm
    exact ⟨runEnd_of_endOfText hrun.unfaulted hrun.cfg hrun.text hatEnd, hpc, hrun.unfaulted⟩

end Sys2Proof.Machine
end

section
/-! The accumulation and the source's loop as arithmetic (R15 of 00_scope.md, R86, R87, R90 and R91 of
40_sumopa.md). -/

namespace Sys2Proof.Machine

/-! ### Addition of an integer to a bit vector -/

/-- Settles O28: the truncation is modulo `2^w`, and the two readings of a vector differ by a multiple of it. -/
theorem accumulationWraps : Obligations.AccumulationWraps := by
  intro w sum prod
  constructor
  · have hpos : (0 : Int) < ((2 ^ w : Nat) : Int) := by positivity
    rw [addInt, trunc, uint, BitVec.toNat_ofInt, Int.toNat_of_nonneg (Int.emod_nonneg _ hpos.ne'), Nat.cast_pow,
      Nat.cast_ofNat]
  · rw [addInt, trunc, uint, BitVec.ofInt_add, BitVec.ofInt_add, BitVec.ofInt_toInt, BitVec.ofInt_natCast,
      BitVec.ofNat_toNat, BitVec.setWidth_eq]

/-- Additions one after the other are one addition of the sum (R15). -/
theorem foldl_addInt {w : Nat} (f : Nat → Int) (l : List Nat) (v : BitVec w) :
    l.foldl (fun sum k => addInt sum (f k)) v = addInt v (l.map f).sum := by
  induction l generalizing v with
  | nil => simp
  | cons k l ih => rw [List.foldl_cons, ih, addInt_addInt, List.map_cons, List.sum_cons]

/-! ### The loop -/

/-- What step `k` of the loop adds: the product of its two source elements, negated where `sub_op` holds, or 0 where
one of them is Inactive (R85, R86). -/
def activeProduct {vl : Nat} (v : Vars) (x : Sources vl v.esize) (row col k : Nat) : Int :=
  if activeElem x.mask1 (4 * row + k) (v.esize / 4) = true ∧
      activeElem x.mask2 (4 * col + k) (v.esize / 4) = true then
    (if v.subOp then (-1 : Int) else 1) *
      (intOf (elem x.operand1 (4 * row + k) (v.esize / 4)) v.op1Unsigned *
        intOf (elem x.operand2 (4 * col + k) (v.esize / 4)) v.op2Unsigned)
  else 0

/-- Each step of the loop adds its product, an Inactive one as 0. -/
theorem accumulate_eq_addInt {vl : Nat} (v : Vars) (x : Sources vl v.esize) (row col : Nat) (sum : BitVec v.esize)
    (k : Nat) : accumulate v x row col sum k = addInt sum (activeProduct v x row col k) := by
  simp only [accumulate, activeProduct, Bool.and_eq_true]
  split
  · cases v.subOp <;> simp
  · rw [addInt_zero]

/-- The loop adds the sum of its four products. -/
theorem newElem_eq_addInt_sum {vl : Nat} (v : Vars) (x : Sources vl v.esize) (row col : Nat) :
    newElem v x row col =
      addInt (elem x.operand3 (row * tileDim vl v.esize + col) v.esize)
        ((List.range 4).map (activeProduct v x row col)).sum := by
  have hstep : accumulate v x row col = fun sum k => addInt sum (activeProduct v x row col k) :=
    funext₂ (accumulate_eq_addInt v x row col)
  rw [newElem, hstep]
  exact foldl_addInt (activeProduct v x row col) (List.range 4) _

/-- Settles O15: each step of the loop is an addition, and additions in a row are one. -/
theorem loopEqualsOneTruncation : Obligations.LoopEqualsOneTruncation :=
  fun _ v x row col => newElem_eq_addInt_sum v x row col

/-! ### The matrix product -/

/-- The 4-way dot product of an instruction's sources, at its own element size (R87). -/
def dotOf {vl : Nat} (i : Instr) (r : Regs vl) (row col : Nat) : Int :=
  dot4 (varsOf i).esize r (varsOf i).a (varsOf i).b (varsOf i).n (varsOf i).m row col

/-- What the loop adds at step `k` is the product of the matrices' elements (R86, R87). -/
theorem activeProduct_readSources {vl : Nat} (i : Instr) (r : Regs vl) (row col k : Nat) :
    activeProduct (varsOf i) (readSources (varsOf i) r) row col k =
      matA (varsOf i).esize r (varsOf i).n (varsOf i).a row k *
        matB (varsOf i).esize r (varsOf i).m (varsOf i).b k col := by
  have hsub : (varsOf i).subOp = false := by cases i <;> rfl
  have h1 : (varsOf i).op1Unsigned = false := by cases i <;> rfl
  have h2 : (varsOf i).op2Unsigned = true := by cases i <;> rfl
  simp only [activeProduct, matA, matB, ite_zero_mul_ite_zero, activeElem, readSources, intOf, sint, uint, elem, hsub,
    h1, h2, Nat.div_div_eq_div_mul, Bool.false_eq_true, if_false, if_true, one_mul]

/-- The new tile element is the old one plus the dot product (R86, R87). -/
theorem newElem_readSources {vl : Nat} (i : Instr) (r : Regs vl) {row col : Nat}
    (hr : row < tileDim vl (varsOf i).esize) (hc : col < tileDim vl (varsOf i).esize) :
    newElem (varsOf i) (readSources (varsOf i) r) row col =
      addInt (tileElem r.za (varsOf i).da (varsOf i).esize row col) (dotOf i r row col) := by
  have hdot : ((List.range 4).map (activeProduct (varsOf i) (readSources (varsOf i) r) row col)).sum =
      dotOf i r row col := by
    simp [List.range_succ, activeProduct_readSources, dotOf, dot4, add_assoc]
  rw [newElem_eq_addInt_sum, hdot]
  exact congrArg (addInt · _) (elem_readTile r.za _ _ hr hc)

/-! ### Ranges -/

/-- A signed source element, or 0 (R90). -/
theorem matA_bounds {vl : Nat} (esize : Nat) (r : Regs vl) (n : Fin 32) (a : Fin 8) (row k : Nat) :
    -2 ^ (esize / 4 - 1) ≤ matA esize r n a row k ∧ matA esize r n a row k ≤ 2 ^ (esize / 4 - 1) - 1 := by
  have hpos : (1 : Int) ≤ 2 ^ (esize / 4 - 1) := one_le_pow₀ (by norm_num)
  unfold matA
  split
  · exact ⟨BitVec.le_toInt _, Int.le_sub_one_of_lt BitVec.toInt_lt⟩
  · omega

/-- An unsigned source element, or 0 (R90). -/
theorem matB_bounds {vl : Nat} (esize : Nat) (r : Regs vl) (m : Fin 32) (b : Fin 8) (k col : Nat) :
    0 ≤ matB esize r m b k col ∧ matB esize r m b k col ≤ 2 ^ (esize / 4) - 1 := by
  have hpos : (1 : Int) ≤ 2 ^ (esize / 4) := one_le_pow₀ (by norm_num)
  unfold matB
  split
  · exact ⟨Int.natCast_nonneg _, Int.le_sub_one_of_lt (by exact_mod_cast BitVec.isLt _)⟩
  · omega

/-- A product of a signed and an unsigned factor lies between those of the extreme ones. -/
theorem mul_bounds {x y lo hi top : Int} (hx : lo ≤ x ∧ x ≤ hi) (hy : 0 ≤ y ∧ y ≤ top) (hlo : lo ≤ 0)
    (hhi : 0 ≤ hi) : lo * top ≤ x * y ∧ x * y ≤ hi * top := by
  constructor <;> nlinarith

/-- The dot product lies within four times the extreme products (R90). -/
theorem dot4_bounds {vl : Nat} (esize : Nat) (r : Regs vl) (a b : Fin 8) (n m : Fin 32) (row col : Nat) :
    4 * (-2 ^ (esize / 4 - 1) * (2 ^ (esize / 4) - 1)) ≤ dot4 esize r a b n m row col ∧
      dot4 esize r a b n m row col ≤ 4 * ((2 ^ (esize / 4 - 1) - 1) * (2 ^ (esize / 4) - 1)) := by
  have hpos : (1 : Int) ≤ 2 ^ (esize / 4 - 1) := one_le_pow₀ (by norm_num)
  have hprod := fun k => mul_bounds (matA_bounds esize r n a row k) (matB_bounds esize r m b k col)
    (by omega) (by omega)
  have h0 := hprod 0
  have h1 := hprod 1
  have h2 := hprod 2
  have h3 := hprod 3
  unfold dot4
  constructor <;> linarith

/-- Settles O27: the bounds at the two element sizes. -/
theorem productSumStaysInRange : Obligations.ProductSumStaysInRange :=
  fun _ r a b n m row col => ⟨by simpa using dot4_bounds 32 r a b n m row col, by
    simpa using dot4_bounds 64 r a b n m row col⟩

end Sys2Proof.Machine
end

section
/-! What an instruction does to ZA storage, vector by vector and element by element, and the laws of the operation that
follow (R85 to R93 of 40_sumopa.md). -/

namespace Sys2Proof.Machine

variable {vl : Nat}

/-! ### Tile elements after an instruction -/

/-- The element of the instruction's tile after the operation (R82, R83). -/
theorem tileElem_sumopaRegs_eq_addInt (i : Instr) (r : Regs vl) {row col : Nat}
    (hr : row < tileDim vl (varsOf i).esize) (hc : col < tileDim vl (varsOf i).esize) :
    tileElem (sumopaRegs (varsOf i) r).za (varsOf i).da (varsOf i).esize row col =
      addInt (tileElem r.za (varsOf i).da (varsOf i).esize row col) (dotOf i r row col) := by
  rw [tileElem_sumopaRegs r (varsOf_da_lt i) hr hc, newElem_readSources i r hr hc]

/-- A storage vector that is no row of the instruction's tile keeps its value (R48). -/
theorem zaVec_sumopaRegs_of_ne_row (i : Instr) (r : Regs vl) {j : Nat}
    (h : ∀ row < tileDim vl (varsOf i).esize, j ≠ tileVec (varsOf i).da (varsOf i).esize row) :
    zaVec (sumopaRegs (varsOf i) r).za j = zaVec r.za j := by
  have hpos : 0 < (varsOf i).esize / 8 := Nat.zero_lt_of_lt (varsOf_da_lt i)
  refine zaVec_sumopaRegs_of_not_owned r (Bool.eq_false_iff.2 fun hown => ?_)
  obtain ⟨row, hr, hj⟩ := (tileOwns_iff hpos).1 hown
  exact h row hr hj

/-- Settles O13: the instruction's own effect on its tile's elements and on the other storage vectors. -/
theorem sumopaSAddsMatrixProduct : Obligations.SumopaSAddsMatrixProduct := by
  intro s da a b n m hf ha hsm hza
  refine ⟨(sumopaRegs (varsOf (.sumopaS da a b n m)) s.regs).za, exec_of_enabled hf ⟨ha, hsm, hza⟩,
    fun row hr col hc => tileElem_sumopaRegs_eq_addInt (.sumopaS da a b n m) s.regs hr hc, fun j hj => ?_⟩
  exact zaVec_sumopaRegs_of_ne_row (.sumopaS da a b n m) s.regs fun row hr => by
    simpa [varsOf, tileVec, mul_comm] using hj row hr

/-- Settles O14: the instruction's own effect on its tile's elements and on the other storage vectors. -/
theorem sumopaDAddsMatrixProduct : Obligations.SumopaDAddsMatrixProduct := by
  intro s da a b n m hf ha hsm hza
  refine ⟨(sumopaRegs (varsOf (.sumopaD da a b n m)) s.regs).za, exec_of_enabled hf ⟨ha, hsm, hza⟩,
    fun row hr col hc => tileElem_sumopaRegs_eq_addInt (.sumopaD da a b n m) s.regs hr hc, fun j hj => ?_⟩
  exact zaVec_sumopaRegs_of_ne_row (.sumopaD da a b n m) s.regs fun row hr => by
    simpa [varsOf, tileVec, mul_comm] using hj row hr

/-! ### Inactive rows and columns -/

/-- The predicate bit of source element `e` in the 32-bit class: bit `e` (R16). -/
theorem predBit_word (da : Fin 4) (a b : Fin 8) (n m : Fin 32) (e : Nat) :
    e * ((varsOf (.sumopaS da a b n m)).esize / 32) = e := by simp [varsOf]

/-- The predicate bit of source element `e` in the 64-bit class: the even bit `2 * e` (R16; log entry 11). -/
theorem predBit_doubleword (da : Fin 8) (a b : Fin 8) (n m : Fin 32) (e : Nat) :
    e * ((varsOf (.sumopaD da a b n m)).esize / 32) = 2 * e := by simp [varsOf, mul_comm]

/-- A row of `A` under Inactive predicate bits is zero (R87). -/
theorem matA_of_inactive {esize : Nat} {r : Regs vl} {n : Fin 32} {a : Fin 8} {row k : Nat}
    (h : (r.pReg a).getLsbD ((4 * row + k) * (esize / 32)) = false) : matA esize r n a row k = 0 := by
  simp [matA, h]

/-- A column of `B` under Inactive predicate bits is zero (R87). -/
theorem matB_of_inactive {esize : Nat} {r : Regs vl} {m : Fin 32} {b : Fin 8} {k col : Nat}
    (h : (r.pReg b).getLsbD ((4 * col + k) * (esize / 32)) = false) : matB esize r m b k col = 0 := by
  simp [matB, h]

/-- The dot product of a row whose first-source elements are all Inactive is 0 (R85). -/
theorem dot4_of_row_inactive {esize : Nat} {r : Regs vl} {a : Fin 8} (b : Fin 8) (n m : Fin 32) {row : Nat} (col : Nat)
    (h : ∀ k < 4, (r.pReg a).getLsbD ((4 * row + k) * (esize / 32)) = false) :
    dot4 esize r a b n m row col = 0 := by
  have hzero : ∀ k < 4, matA esize r n a row k = 0 := fun k hk => matA_of_inactive (h k hk)
  simp [dot4, hzero]

/-- The dot product of a column whose second-source elements are all Inactive is 0 (R85). -/
theorem dot4_of_col_inactive {esize : Nat} {r : Regs vl} (a : Fin 8) {b : Fin 8} (n m : Fin 32) (row : Nat) {col : Nat}
    (h : ∀ k < 4, (r.pReg b).getLsbD ((4 * col + k) * (esize / 32)) = false) :
    dot4 esize r a b n m row col = 0 := by
  have hzero : ∀ k < 4, matB esize r m b k col = 0 := fun k hk => matB_of_inactive (h k hk)
  simp [dot4, hzero]

/-- A tile element whose dot product is 0 keeps its value. -/
theorem tileElem_sumopaRegs_of_dot_eq_zero {i : Instr} {r : Regs vl} {row col : Nat}
    (hr : row < tileDim vl (varsOf i).esize) (hc : col < tileDim vl (varsOf i).esize) (h : dotOf i r row col = 0) :
    tileElem (sumopaRegs (varsOf i) r).za (varsOf i).da (varsOf i).esize row col =
      tileElem r.za (varsOf i).da (varsOf i).esize row col := by
  rw [tileElem_sumopaRegs_eq_addInt i r hr hc, h, addInt_zero]

/-- Settles O18: the row's dot products are all 0. -/
theorem inactiveContainerKeepsRow : Obligations.InactiveContainerKeepsRow := by
  constructor <;> intro s da a b n m row hf he hr hinactive <;> refine ⟨_, exec_of_enabled hf he, fun col hc => ?_⟩
  · exact tileElem_sumopaRegs_of_dot_eq_zero (i := .sumopaS da a b n m) hr hc
      (dot4_of_row_inactive b n m col fun k hk => (congrArg _ (predBit_word ..)).trans (hinactive k hk))
  · exact tileElem_sumopaRegs_of_dot_eq_zero (i := .sumopaD da a b n m) hr hc
      (dot4_of_row_inactive b n m col fun k hk => (congrArg _ (predBit_doubleword ..)).trans (hinactive k hk))

/-- Settles O19: the column's dot products are all 0. -/
theorem inactiveContainerKeepsColumn : Obligations.InactiveContainerKeepsColumn := by
  constructor <;> intro s da a b n m col hf he hc hinactive <;> refine ⟨_, exec_of_enabled hf he, fun row hr => ?_⟩
  · exact tileElem_sumopaRegs_of_dot_eq_zero (i := .sumopaS da a b n m) hr hc
      (dot4_of_col_inactive a n m row fun k hk => (congrArg _ (predBit_word ..)).trans (hinactive k hk))
  · exact tileElem_sumopaRegs_of_dot_eq_zero (i := .sumopaD da a b n m) hr hc
      (dot4_of_col_inactive a n m row fun k hk => (congrArg _ (predBit_doubleword ..)).trans (hinactive k hk))

/-! ### The whole of ZA storage -/

/-- What an instruction adds to element `col` of storage vector `j`: the dot product of the tile row the vector is, and
0 where it is none. -/
def laneSum (i : Instr) (r : Regs vl) (j col : Nat) : Int :=
  if tileOwns vl (varsOf i).da (varsOf i).esize j then
    dotOf i r ((j - (varsOf i).da) / ((varsOf i).esize / 8)) col
  else 0

/-- The sums an instruction adds do not depend on ZA, so another instruction leaves them as they are. -/
theorem laneSum_sumopaRegs (i : Instr) (v : Vars) (r : Regs vl) (j col : Nat) :
    laneSum i (sumopaRegs v r) j col = laneSum i r j col := rfl

/-- Every element of ZA storage after an instruction is the old one plus what the instruction adds to it. -/
theorem elem_zaVec_sumopaRegs (i : Instr) (r : Regs vl) (j : Nat) {col esize : Nat} (he : (varsOf i).esize = esize)
    (hc : col < tileDim vl esize) :
    elem (zaVec (sumopaRegs (varsOf i) r).za j) col esize =
      addInt (elem (zaVec r.za j) col esize) (laneSum i r j col) := by
  subst he
  have hpos : 0 < (varsOf i).esize / 8 := Nat.zero_lt_of_lt (varsOf_da_lt i)
  unfold laneSum
  split
  · next hown =>
    obtain ⟨row, hr, rfl⟩ := (tileOwns_iff hpos).1 hown
    have hrow : (tileVec (varsOf i).da (varsOf i).esize row - (varsOf i).da) / ((varsOf i).esize / 8) = row := by
      simp [tileVec, Nat.mul_div_cancel _ hpos]
    rw [hrow]
    exact tileElem_sumopaRegs_eq_addInt i r hr hc
  · next hown => rw [zaVec_sumopaRegs_of_not_owned r (Bool.eq_false_iff.2 hown), addInt_zero]

/-- The bits of a storage vector past its elements keep their value. -/
theorem getLsbD_zaVec_sumopaRegs_of_le (i : Instr) (r : Regs vl) (j : Nat) {bit esize : Nat}
    (he : (varsOf i).esize = esize) (hbit : tileDim vl esize * esize ≤ bit) :
    (zaVec (sumopaRegs (varsOf i) r).za j).getLsbD bit = (zaVec r.za j).getLsbD bit := by
  subst he
  have ht := varsOf_da_lt i
  cases hown : tileOwns vl (varsOf i).da (varsOf i).esize j with
  | false => rw [zaVec_sumopaRegs_of_not_owned r hown]
  | true =>
    obtain ⟨row, hr, rfl⟩ := (tileOwns_iff (Nat.zero_lt_of_lt ht)).1 hown
    rw [sumopaRegs, Regs.setZA_za, zaVec_writeTile_row _ _ ht hr, getLsbD_fillElems_of_le _ _ hbit]

/-- Two storages are the same when every element of every vector is, and every bit past them. -/
theorem zaStorage_ext_elem (esize : Nat) {za za' : ZAStorage vl}
    (helem : ∀ j, ∀ col < tileDim vl esize, elem (zaVec za j) col esize = elem (zaVec za' j) col esize)
    (hpast : ∀ j bit, tileDim vl esize * esize ≤ bit → (zaVec za j).getLsbD bit = (zaVec za' j).getLsbD bit) :
    za = za' :=
  zaStorage_ext fun j _ => eq_of_elem_eq _ _ (helem j) (hpast j)

/-- An instruction that adds 0 everywhere changes no register (R88). -/
theorem sumopaRegs_eq_self {i : Instr} {r : Regs vl}
    (h : ∀ j, ∀ col < tileDim vl (varsOf i).esize, laneSum i r j col = 0) : sumopaRegs (varsOf i) r = r := by
  have hza : (sumopaRegs (varsOf i) r).za = r.za :=
    zaStorage_ext_elem (varsOf i).esize
      (fun j col hc => by rw [elem_zaVec_sumopaRegs i r j rfl hc, h j col hc, addInt_zero])
      (fun j _ hbit => getLsbD_zaVec_sumopaRegs_of_le i r j rfl hbit)
  exact congrArg r.setZA hza

/-- What an instruction adds is 0 everywhere when each of its dot products is. -/
theorem laneSum_eq_zero {i : Instr} {r : Regs vl} {col : Nat}
    (h : ∀ row < tileDim vl (varsOf i).esize, dotOf i r row col = 0) (j : Nat) : laneSum i r j col = 0 := by
  unfold laneSum
  split
  · next hown =>
    simp only [tileOwns, Bool.and_eq_true, decide_eq_true_eq] at hown
    exact h _ hown.2
  · rfl

/-- An instruction one of whose sources is all Inactive completes and changes `pc` only (R88). -/
theorem exec_of_all_inactive {i : Instr} {s : State} (hf : s.HasFeature i) (he : s.Enabled)
    (h : (∀ row < tileDim s.cfg.vl (varsOf i).esize, ∀ k < 4,
          (s.regs.pReg (varsOf i).a).getLsbD ((4 * row + k) * ((varsOf i).esize / 32)) = false) ∨
        ∀ col < tileDim s.cfg.vl (varsOf i).esize, ∀ k < 4,
          (s.regs.pReg (varsOf i).b).getLsbD ((4 * col + k) * ((varsOf i).esize / 32)) = false) :
    exec i s = .next { s with pc := s.pc + 4#64 } := by
  have hdot : ∀ col < tileDim s.cfg.vl (varsOf i).esize, ∀ row < tileDim s.cfg.vl (varsOf i).esize,
      dotOf i s.regs row col = 0 := fun col hc row hr =>
    h.elim (fun ha => dot4_of_row_inactive _ _ _ col (ha row hr)) fun hb => dot4_of_col_inactive _ _ _ row (hb col hc)
  rw [exec_of_enabled hf he, sumopaRegs_eq_self fun j col hc => laneSum_eq_zero (hdot col hc) j]
  rfl

/-- Settles O17: every predicate bit looked at is one of a row's or a column's four. -/
theorem allInactiveChangesOnlyPc : Obligations.AllInactiveChangesOnlyPc := by
  constructor <;> intro s da a b n m hf he h
  · have hbits : ∀ p : Fin 8, (∀ e < 4 * (s.cfg.vl / 32), (s.regs.pReg p).getLsbD e = false) →
        ∀ row < s.cfg.vl / 32, ∀ k < 4, (s.regs.pReg p).getLsbD ((4 * row + k) * (32 / 32)) = false :=
      fun p hp row hr k hk => by simpa using hp (4 * row + k) (by omega)
    exact exec_of_all_inactive (i := .sumopaS da a b n m) hf he (h.imp (hbits a) (hbits b))
  · have hbits : ∀ p : Fin 8, (∀ e < 4 * (s.cfg.vl / 64), (s.regs.pReg p).getLsbD (2 * e) = false) →
        ∀ row < s.cfg.vl / 64, ∀ k < 4, (s.regs.pReg p).getLsbD ((4 * row + k) * (64 / 32)) = false :=
      fun p hp row hr k hk => by simpa [mul_comm] using hp (4 * row + k) (by omega)
    exact exec_of_all_inactive (i := .sumopaD da a b n m) hf he (h.imp (hbits a) (hbits b))

/-! ### Two instructions of one class -/

/-- Instructions of one element size change the registers alike in either order: each adds sums that do not depend on
ZA to the same elements (R91). -/
theorem sumopaRegs_comm {i j : Instr} (he : (varsOf i).esize = (varsOf j).esize) (r : Regs vl) :
    sumopaRegs (varsOf j) (sumopaRegs (varsOf i) r) = sumopaRegs (varsOf i) (sumopaRegs (varsOf j) r) := by
  have hza : (sumopaRegs (varsOf j) (sumopaRegs (varsOf i) r)).za =
      (sumopaRegs (varsOf i) (sumopaRegs (varsOf j) r)).za := by
    refine zaStorage_ext_elem (varsOf j).esize (fun l col hc => ?_) fun l bit hbit => ?_
    · rw [elem_zaVec_sumopaRegs j _ l rfl hc, elem_zaVec_sumopaRegs i _ l he hc, elem_zaVec_sumopaRegs i _ l he hc,
        elem_zaVec_sumopaRegs j _ l rfl hc, laneSum_sumopaRegs, laneSum_sumopaRegs, addInt_addInt, addInt_addInt,
        add_comm]
    · rw [getLsbD_zaVec_sumopaRegs_of_le j _ l rfl hbit, getLsbD_zaVec_sumopaRegs_of_le i _ l he hbit,
        getLsbD_zaVec_sumopaRegs_of_le i _ l he hbit, getLsbD_zaVec_sumopaRegs_of_le j _ l rfl hbit]
  exact congrArg r.setZA hza

/-- Instructions of one class need one feature. -/
theorem hasFeature_congr {i j : Instr} {s : State} (h : i.operands.cls = j.operands.cls) :
    s.HasFeature i ↔ s.HasFeature j := by
  cases i with
  | sumopaS => cases j with
    | sumopaS => exact Iff.rfl
    | sumopaD => cases h
  | sumopaD => cases j with
    | sumopaS => cases h
    | sumopaD => exact Iff.rfl

/-- Settles O24: both orders complete, and the registers they leave are the same. -/
theorem sameClassSumopasCommute : Obligations.SameClassSumopasCommute := by
  intro i j s hcls hf he
  have hesize : (varsOf i).esize = (varsOf j).esize := by rw [varsOf_esize, varsOf_esize, hcls]
  have hfj : s.HasFeature j := (hasFeature_congr hcls).1 hf
  have hkept : ∀ (k : Instr) (regs : Regs s.cfg.vl), s.HasFeature k → (s.complete regs).HasFeature k :=
    fun k _ h => by cases k <;> exact h
  refine ⟨_, _, _, exec_of_enabled hf he, exec_of_enabled (hkept j _ hfj) he, exec_of_enabled hfj he, ?_⟩
  rw [exec_of_enabled (hkept i _ hf) he]
  simp only [State.complete, sumopaRegs_comm hesize]

end Sys2Proof.Machine
end

section
/-! What a tile element depends on (R93, R85 of 40_sumopa.md), and how the tiles of the two sizes lie in ZA storage (R36
of 10_state.md). -/

namespace Sys2Proof.Machine

/-! ### What a tile element depends on -/

/-- Two vectors with the same container have the same four source elements in it. -/
theorem elem_quarter_congr {w : Nat} {x y : BitVec w} {e k esize : Nat} (hesize : 4 * (esize / 4) = esize) (hk : k < 4)
    (h : elem x e esize = elem y e esize) : elem x (4 * e + k) (esize / 4) = elem y (4 * e + k) (esize / 4) := by
  generalize esize / 4 = q at hesize ⊢
  subst hesize
  apply BitVec.eq_of_getLsbD_eq
  intro bit hbit
  have hin : k * q + bit < 4 * q := by nlinarith
  have hplace : e * (4 * q) + (k * q + bit) = (4 * e + k) * q + bit := by ring
  have hbits := congrArg (·.getLsbD (k * q + bit)) h
  simpa only [getLsbD_elem, hin, hbit, hplace, decide_true, Bool.true_and] using hbits

variable {vl : Nat} {r r' : Regs vl}

/-- An element of `A` depends on its row's container and predicate bits only (R87, R93). -/
theorem matA_congr {esize row k : Nat} {n : Fin 32} {a : Fin 8} (hesize : 4 * (esize / 4) = esize) (hk : k < 4)
    (hz : elem (r'.zReg n) row esize = elem (r.zReg n) row esize)
    (hp : ∀ k < 4, (r'.pReg a).getLsbD ((4 * row + k) * (esize / 32)) =
      (r.pReg a).getLsbD ((4 * row + k) * (esize / 32))) :
    matA esize r' n a row k = matA esize r n a row k := by
  have helem := elem_quarter_congr hesize hk hz
  unfold elem at helem
  rw [matA, matA, hp k hk, helem]

/-- An element of `B` depends on its column's container and predicate bits only (R87, R93). -/
theorem matB_congr {esize col k : Nat} {m : Fin 32} {b : Fin 8} (hesize : 4 * (esize / 4) = esize) (hk : k < 4)
    (hz : elem (r'.zReg m) col esize = elem (r.zReg m) col esize)
    (hp : ∀ k < 4, (r'.pReg b).getLsbD ((4 * col + k) * (esize / 32)) =
      (r.pReg b).getLsbD ((4 * col + k) * (esize / 32))) :
    matB esize r' m b k col = matB esize r m b k col := by
  have helem := elem_quarter_congr hesize hk hz
  unfold elem at helem
  rw [matB, matB, hp k hk, helem]

/-- A dot product depends on its row's and its column's containers and predicate bits only (R93). -/
theorem dot4_congr {esize row col : Nat} {n m : Fin 32} {a b : Fin 8} (hesize : 4 * (esize / 4) = esize)
    (hzn : elem (r'.zReg n) row esize = elem (r.zReg n) row esize)
    (hzm : elem (r'.zReg m) col esize = elem (r.zReg m) col esize)
    (hpa : ∀ k < 4, (r'.pReg a).getLsbD ((4 * row + k) * (esize / 32)) =
      (r.pReg a).getLsbD ((4 * row + k) * (esize / 32)))
    (hpb : ∀ k < 4, (r'.pReg b).getLsbD ((4 * col + k) * (esize / 32)) =
      (r.pReg b).getLsbD ((4 * col + k) * (esize / 32))) :
    dot4 esize r' a b n m row col = dot4 esize r a b n m row col := by
  have hA : ∀ k < 4, matA esize r' n a row k = matA esize r n a row k := fun k hk => matA_congr hesize hk hzn hpa
  have hB : ∀ k < 4, matB esize r' m b k col = matB esize r m b k col := fun k hk => matB_congr hesize hk hzm hpb
  simp [dot4, hA, hB]

/-- A tile element after an instruction depends on the old one and the dot product only (R82, R83). -/
theorem tileElem_sumopaRegs_congr {i : Instr} {row col : Nat} (hr : row < tileDim vl (varsOf i).esize)
    (hc : col < tileDim vl (varsOf i).esize)
    (hza : tileElem r'.za (varsOf i).da (varsOf i).esize row col = tileElem r.za (varsOf i).da (varsOf i).esize row col)
    (hdot : dotOf i r' row col = dotOf i r row col) :
    tileElem (sumopaRegs (varsOf i) r').za (varsOf i).da (varsOf i).esize row col =
      tileElem (sumopaRegs (varsOf i) r).za (varsOf i).da (varsOf i).esize row col := by
  rw [tileElem_sumopaRegs_eq_addInt i r' hr hc, tileElem_sumopaRegs_eq_addInt i r hr hc, hza, hdot]

/-- A tile element is four source elements wide (R2). -/
theorem four_mul_esize_div_four (i : Instr) : 4 * ((varsOf i).esize / 4) = (varsOf i).esize := by
  cases i <;> simp [varsOf]

/-- Settles O25: the lane's inputs determine its dot product. -/
theorem tileLaneReadsOnlyItsInputs : Obligations.TileLaneReadsOnlyItsInputs := by
  constructor <;> intro s t t' r' da a b n m row col hr hc hzn hzm hpa hpb hza h h' <;>
    obtain ⟨-, -, rfl⟩ := exec_next h <;>
    obtain ⟨-, -, rfl⟩ := exec_next h'
  · refine tileElem_sumopaRegs_congr (i := .sumopaS da a b n m) hr hc hza
      (dot4_congr (four_mul_esize_div_four _) hzn hzm (fun k hk => ?_) fun k hk => ?_) <;> rw [predBit_word]
    exacts [hpa k hk, hpb k hk]
  · refine tileElem_sumopaRegs_congr (i := .sumopaD da a b n m) hr hc hza
      (dot4_congr (four_mul_esize_div_four _) hzn hzm (fun k hk => ?_) fun k hk => ?_) <;> rw [predBit_doubleword]
    exacts [hpa k hk, hpb k hk]

/-- ZA storage after an instruction depends on the old storage and the dot products only. -/
theorem za_sumopaRegs_congr {i : Instr} (hza : r'.za = r.za)
    (hdot : ∀ row col, dotOf i r' row col = dotOf i r row col) :
    (sumopaRegs (varsOf i) r').za = (sumopaRegs (varsOf i) r).za := by
  refine zaStorage_ext_elem (varsOf i).esize (fun j col hc => ?_) fun j bit hbit => ?_
  · have hsum : laneSum i r' j col = laneSum i r j col := by simp only [laneSum, hdot]
    rw [elem_zaVec_sumopaRegs i r' j rfl hc, elem_zaVec_sumopaRegs i r j rfl hc, hza, hsum]
  · rw [getLsbD_zaVec_sumopaRegs_of_le i r' j rfl hbit, getLsbD_zaVec_sumopaRegs_of_le i r j rfl hbit, hza]

/-- Settles O26: the dot products look at even bits only. -/
theorem oddPredicateBitsAreIgnored : Obligations.OddPredicateBitsAreIgnored := by
  intro s t r' da a b n m hz hza hp h
  obtain ⟨hf, he, rfl⟩ := exec_next h
  refine ⟨_, exec_of_enabled hf ((enableCheck_eq_none_iff s).1 he), fun j bit => ?_⟩
  have hreg : ∀ n : Fin 32, r'.zReg n = s.regs.zReg n := fun n => congrArg (·[n]) hz
  have hbit : ∀ (q : Fin 8) (e : Nat),
      (r'.pReg q).getLsbD (e * ((varsOf (.sumopaD da a b n m)).esize / 32)) =
        (s.regs.pReg q).getLsbD (e * ((varsOf (.sumopaD da a b n m)).esize / 32)) := fun q e => by
    rw [predBit_doubleword]
    exact hp (q.castLE (by decide)) e
  have hdot : ∀ row col, dotOf (.sumopaD da a b n m) r' row col = dotOf (.sumopaD da a b n m) s.regs row col :=
    fun row col => dot4_congr (four_mul_esize_div_four _) (by rw [hreg]) (by rw [hreg])
      (fun k _ => hbit a (4 * row + k)) fun k _ => hbit b (4 * col + k)
  rw [State.complete_regs, State.complete_regs, za_sumopaRegs_congr hza hdot]
  rfl

/-! ### How tiles lie in storage -/

/-- Two neighbouring elements are one of twice the size (R12). -/
theorem elem_append_elem {w : Nat} (v : BitVec w) (e size : Nat) :
    elem v (2 * e + 1) size ++ elem v (2 * e) size = elem v e (size + size) := by
  have hstart : 2 * e * size = e * (size + size) := by ring
  rw [elem, elem, elem, BitVec.extractLsb'_append_extractLsb'_eq_extractLsb' (by ring), hstart]

/-- Settles O30: the rows are the same storage vectors, and each 64-bit element two neighbouring 32-bit ones. -/
theorem wordTileIsTwoDoublewordTiles : Obligations.WordTileIsTwoDoublewordTiles := by
  intro vl za t i c _ _
  have heven : tileVec t 64 i = tileVec t 32 (2 * i) := by unfold tileVec; omega
  have hodd : tileVec (t + 4) 64 i = tileVec t 32 (2 * i + 1) := by unfold tileVec; omega
  simp only [tileElem, heven, hodd]
  exact ⟨(elem_append_elem _ c 32).symm, (elem_append_elem _ c 32).symm⟩

/-- A tile row that is no row of the destination keeps its elements (R48). -/
theorem tileElem_exec_of_ne_row {i : Instr} {s t : State} (h : exec i s = .next t) {tile esize row : Nat}
    (hrow : ∀ row', tileVec tile esize row ≠ tileVec i.operands.da i.operands.cls.esize row') (col : Nat) :
    tileElem t.regs.za tile esize row col = tileElem s.regs.za tile esize row col := by
  obtain ⟨-, -, rfl⟩ := exec_next h
  rw [← varsOf_da, ← varsOf_esize] at hrow
  exact congrArg (elem · col esize) (zaVec_sumopaRegs_of_ne_row i s.regs fun row' _ => hrow row')

/-- The rows of a tile are storage vectors with the tile's number modulo any divisor of their distance (R36). -/
theorem tileVec_mod {g esize : Nat} (hg : g ∣ esize / 8) (t row : Nat) : tileVec t esize row % g = t % g := by
  obtain ⟨c, hc⟩ := hg
  have hstep : row * (g * c) = g * (c * row) := by ring
  rw [tileVec, hc, hstep, Nat.add_mul_mod_self_left]

/-- Settles O31: rows of disjoint tiles differ modulo the number of tiles, or modulo 4. -/
theorem disjointTilesAreKept : Obligations.DisjointTilesAreKept := by
  intro i s t tile h
  have hda : i.operands.da < i.operands.cls.esize / 8 := by
    rw [← varsOf_da, ← varsOf_esize]
    exact varsOf_da_lt i
  have htiles : i.operands.cls.tiles = i.operands.cls.esize / 8 := by cases i.operands.cls <;> rfl
  have hfour : 4 ∣ i.operands.cls.esize / 8 := by cases i.operands.cls <;> decide
  refine ⟨fun hlt hne row col => tileElem_exec_of_ne_row h (fun row' heq => hne ?_) col,
    fun hlt hne row col => tileElem_exec_of_ne_row h (fun row' heq => hne ?_) col,
    fun _ hne row col => tileElem_exec_of_ne_row h (fun row' heq => hne ?_) col⟩
  · have hmod := congrArg (· % (i.operands.cls.esize / 8)) heq
    simp only [tileVec_mod dvd_rfl] at hmod
    rwa [Nat.mod_eq_of_lt (htiles ▸ hlt), Nat.mod_eq_of_lt hda] at hmod
  · have hmod := congrArg (· % 4) heq
    simp only [tileVec_mod hfour, tileVec_mod (show 4 ∣ 32 / 8 by decide)] at hmod
    rwa [Nat.mod_eq_of_lt hlt] at hmod
  · have hmod := congrArg (· % 4) heq
    simpa only [tileVec_mod hfour, tileVec_mod (show 4 ∣ 64 / 8 by decide)] using hmod

end Sys2Proof.Machine
end
